-- ==== Sys2Proof/Word.lean ====
section
/-! DEFINITION. The machine's one word: the unsigned 8-bit byte (00_scope.md R8: every value is 8 bits wide). -/

namespace Sys2Proof

/-- Register contents, memory cells, addresses, immediates and the program counter are all bytes 0..255
(00_scope.md R4, R8). -/
abbrev Byte := BitVec 8

end Sys2Proof
end

