-- ==== Sys2Proof/Config.lean ====
section
/-! DEFINITION. The constants of this hardware (00_scope.md R4). None is an argument of the model, and none is a free
value: the spec leaves no result undefined. -/

namespace Sys2Proof.Config

/-- The number of memory cells (00_scope.md R4, 20_memory.md R30). -/
def memorySize : Nat := 256

/-- The number of registers (00_scope.md R4, 10_state.md R10). -/
abbrev registerCount : Nat := 8

/-- The index of the stack pointer in the register file (00_scope.md R4, 10_state.md R12). -/
def stackPointerIndex : Fin registerCount := 7

/-- The stack pointer's reset value 0xF4 (00_scope.md R4, 10_state.md R12). -/
def stackPointerReset : Byte := 0xF4#8

/-- The entry point: execution begins at address 0 (20_memory.md R38, 70_reset_and_hazards.md R130). -/
def entryPoint : Byte := 0x00#8

/-- What a cell holds that neither the image nor a store has reached (20_memory.md R30: "zero-initialized"). -/
def initialCell : Byte := 0x00#8

/-- The longest instruction, in bytes (30_encoding.md R50). -/
def longestInstruction : Nat := 3

end Sys2Proof.Config
end

