-- ==== Sys2Proof/Syntax.lean ====
section
/-! DEFINITION. The instruction set: the 13 rows of spec/opcode_table.json (30_encoding.md R54, "the full instruction
set"), one constructor each. -/

namespace Sys2Proof

/-- An instruction with its operand bytes as the encoding holds them. A register operand `a` or `b` is the WHOLE operand
byte (30_encoding.md R52), of which 0..7 name a register: `Instr.WellFormed` says so, and the meanings raise
InvalidRegister on the others. -/
inductive Instr where
  /-- HLT (R70). -/
  | hlt
  /-- LDI a, imm8 (R71). -/
  | ldi (a imm8 : Byte)
  /-- PRN a (R72). -/
  | prn (a : Byte)
  /-- MUL a, b (R80). -/
  | mul (a b : Byte)
  /-- ADD a, b (R81). -/
  | add (a b : Byte)
  /-- PUSH a (R90). -/
  | push (a : Byte)
  /-- POP a (R91). -/
  | pop (a : Byte)
  /-- CALL a (R100). -/
  | call (a : Byte)
  /-- RET (R101). -/
  | ret
  /-- CMP a, b (R82). -/
  | cmp (a b : Byte)
  /-- JMP a (R102). -/
  | jmp (a : Byte)
  /-- JEQ a (R103). -/
  | jeq (a : Byte)
  /-- JNE a (R104). -/
  | jne (a : Byte)
deriving DecidableEq, Repr

end Sys2Proof
end

