-- ==== Sys2Proof/WellFormed.lean ====
section
/-! DEFINITION. Which instructions name only registers that exist (30_encoding.md R52, R59: the only illegal operand
values are register indices 8..255). -/

namespace Sys2Proof

/-- The operand bytes that the instruction's format uses as register indices, operand 1 before operand 2
(30_encoding.md R56: R checks operand 1, RR checks both, RI checks operand 1 only, Z has none). -/
def Instr.registerOperands : Instr → List Byte
  | .hlt => []
  | .ldi a _ => [a]
  | .prn a => [a]
  | .mul a b => [a, b]
  | .add a b => [a, b]
  | .push a => [a]
  | .pop a => [a]
  | .call a => [a]
  | .ret => []
  | .cmp a b => [a, b]
  | .jmp a => [a]
  | .jeq a => [a]
  | .jne a => [a]

/-- Every register operand is one of 0..7 (30_encoding.md R52). -/
abbrev Instr.WellFormed (i : Instr) : Prop :=
  ∀ b ∈ i.registerOperands, b.toNat < Config.registerCount

end Sys2Proof
end

