-- ==== Sys2Proof/Decode.lean ====
section
/-! DEFINITION. The decoder (30_encoding.md R50 to R58), total on any bytes and rejecting by name, and after it the
encoder, written from the same table. -/

namespace Sys2Proof

/-- What the dispatch table holds for a defined opcode: the instruction's format and how its operand bytes become the
instruction (30_encoding.md R50, R55). -/
inductive Handler where
  /-- Format Z: no operand byte. -/
  | z (i : Instr)
  /-- Format R: operand 1 is a register index. -/
  | r (mk : Byte → Instr)
  /-- Format RR: operands 1 and 2 are register indices. -/
  | rr (mk : Byte → Byte → Instr)
  /-- Format RI: operand 1 is a register index, operand 2 an immediate. -/
  | ri (mk : Byte → Byte → Instr)

/-- How many operand bytes the format has: "a static property of the opcode" (30_encoding.md R51). -/
def Handler.operandCount : Handler → Nat
  | .z _ => 0
  | .r _ => 1
  | .rr _ => 2
  | .ri _ => 2

/-- The dispatch table: 13 opcodes, every other key has no entry (30_encoding.md R54, R56). -/
def dispatchTable : List (Byte × Handler) :=
  [ (0x01#8, .z .hlt),
    (0x82#8, .ri .ldi),
    (0x47#8, .r .prn),
    (0xA2#8, .rr .mul),
    (0xA0#8, .rr .add),
    (0x45#8, .r .push),
    (0x46#8, .r .pop),
    (0x50#8, .r .call),
    (0x11#8, .z .ret),
    (0xA7#8, .rr .cmp),
    (0x54#8, .r .jmp),
    (0x55#8, .r .jeq),
    (0x56#8, .r .jne) ]

/-- The decode stage: one total function from the opcode byte to a handler or "no entry" (30_encoding.md R55), matched
on all eight bits. -/
def dispatch (opcode : Byte) : Option Handler :=
  (dispatchTable.find? fun row => row.1 == opcode).map (·.2)

/-- Why bytes do not decode. -/
inductive Reject where
  /-- The opcode byte has no entry in the dispatch table (30_encoding.md R58). -/
  | illegalInstruction (opcode : Byte)
  /-- There is no byte number `k` (0 for the opcode, 1 and 2 for the operands), and the instruction has one. -/
  | missingByte (k : Nat)
deriving DecidableEq, Repr

/-- Reads one instruction from the front of the bytes and gives back the bytes after it. The opcode is looked up first,
then operand 1 is taken, then operand 2 (30_encoding.md R57). A register operand is not masked (R52): an operand byte
above 7 stays in the instruction, and its meaning raises InvalidRegister. -/
def decode : List Byte → Except Reject (Instr × List Byte)
  | [] => .error (.missingByte 0)
  | opcode :: rest =>
    match dispatch opcode, rest with
    | none, _ => .error (.illegalInstruction opcode)
    | some (.z i), rest => .ok (i, rest)
    | some (.r mk), o1 :: rest => .ok (mk o1, rest)
    | some (.rr mk), o1 :: o2 :: rest => .ok (mk o1 o2, rest)
    | some (.ri mk), o1 :: o2 :: rest => .ok (mk o1 o2, rest)
    | some (.r _), [] => .error (.missingByte 1)
    | some (.rr _), [] => .error (.missingByte 1)
    | some (.ri _), [] => .error (.missingByte 1)
    | some (.rr _), [_] => .error (.missingByte 2)
    | some (.ri _), [_] => .error (.missingByte 2)

/-- Byte 0 of the instruction (30_encoding.md R54). -/
def Instr.opcode : Instr → Byte
  | .hlt => 0x01#8
  | .ldi _ _ => 0x82#8
  | .prn _ => 0x47#8
  | .mul _ _ => 0xA2#8
  | .add _ _ => 0xA0#8
  | .push _ => 0x45#8
  | .pop _ => 0x46#8
  | .call _ => 0x50#8
  | .ret => 0x11#8
  | .cmp _ _ => 0xA7#8
  | .jmp _ => 0x54#8
  | .jeq _ => 0x55#8
  | .jne _ => 0x56#8

/-- The bytes after the opcode, in ascending address order (30_encoding.md R50, 20_memory.md R35). -/
def Instr.operandBytes : Instr → List Byte
  | .hlt => []
  | .ldi a imm8 => [a, imm8]
  | .prn a => [a]
  | .mul a b => [a, b]
  | .add a b => [a, b]
  | .push a => [a]
  | .pop a => [a]
  | .call a => [a]
  | .ret => []
  | .cmp a b => [a, b]
  | .jmp a => [a]
  | .jeq a => [a]
  | .jne a => [a]

/-- The instruction's bytes, the opcode at the lowest address (30_encoding.md R50). -/
def encode (i : Instr) : List Byte := i.opcode :: i.operandBytes

/-- The instruction's length in bytes: 1 + the operand count (30_encoding.md R51). -/
def Instr.length (i : Instr) : Nat := (encode i).length

/-- The bytes of a word of `nbits` bits numbered as spec/opcode_table.json numbers them (bit 0 is the least significant
bit of the first byte, the second byte is bits 15..8), with zero bytes above, up to the longest instruction. -/
def tableWordBytes (nbits w : Nat) : List Byte :=
  (List.range Config.longestInstruction).map fun k => BitVec.ofNat 8 (w % 2 ^ nbits / 256 ^ k)

/-- The instruction the decoder reads from a word of the opcode table. -/
def decodeTableWord (nbits w : Nat) : Option Instr :=
  match decode (tableWordBytes nbits w) with
  | .ok (i, _) => some i
  | .error _ => none

end Sys2Proof
end

