-- ==== Sys2Proof/Machine/State.lean ====
section
/-! DEFINITION. The machine's state as plain data (10_state.md, 20_memory.md R30), why a step can stop, and the state
right after reset (70_reset_and_hazards.md R130). -/

namespace Sys2Proof.Machine

/-- A register of the file R0..R7, by its index (10_state.md R10). -/
abbrev Reg := Fin Config.registerCount

/-- The register that PUSH, POP, CALL and RET use as the stack pointer (10_state.md R12). -/
def spReg : Reg := Config.stackPointerIndex

/-- The three one-bit condition flags (10_state.md R16, 90_conflicts.md C4). -/
structure Flags where
  /-- E, Equal. -/
  equal : Bool
  /-- L, Less. -/
  less : Bool
  /-- G, Greater. -/
  greater : Bool
deriving DecidableEq, Repr

/-- The run state (10_state.md R17). -/
inductive RunState where
  /-- The machine takes steps. -/
  | running
  /-- Terminal: no state changes until reset. -/
  | halted
deriving DecidableEq, Repr

/-- The names `fault_cause` takes (10_state.md R18, 60_exceptions.md R110, R111). -/
inductive FaultCause where
  /-- NONE: no fault has been raised since reset. -/
  | none
  /-- IllegalInstruction, raised by the step (R112). -/
  | illegalInstruction
  /-- OutOfBounds, raised where R113's table says. -/
  | outOfBounds
  /-- InvalidRegister, raised for a register operand byte above 7 (R114). -/
  | invalidRegister
  /-- UnsupportedALUOp: it has a number and is never raised (R115). -/
  | unsupportedAluOp
deriving DecidableEq, Repr

/-- Memory as its listed cells, addresses strictly rising, no listed cell holding `Config.initialCell`, which is what an
unlisted address reads as (20_memory.md R30). -/
abbrev Memory := List Host.Cell

/-- The canonical form: every listed address is a cell of the machine, every listed byte differs from what an unlisted
address reads as, and addresses rise strictly. -/
abbrev Memory.wf (m : Memory) : Prop :=
  (∀ c ∈ m, c.1 < Config.memorySize ∧ c.2 ≠ Config.initialCell) ∧ m.Pairwise (fun c d => c.1 < d.1)

/-- Everything the machine remembers between two steps (10_state.md section 8). -/
structure State where
  /-- x[0]..x[7], x[7] being SP (10_state.md R10, R12). -/
  regs : Vector Byte Config.registerCount
  /-- The address of the next instruction's opcode byte (10_state.md R14). -/
  pc : Byte
  /-- E, L, G (10_state.md R16). -/
  flags : Flags
  /-- RUNNING or HALTED (10_state.md R17). -/
  run : RunState
  /-- Which fault ended the run, if one did (10_state.md R18). -/
  faultCause : FaultCause
  /-- The fault's information, an integer (10_state.md R18). -/
  faultInfo : Int
  /-- The values PRN has emitted, oldest first (10_state.md R19). -/
  out : List Byte
  /-- The 256 cells (20_memory.md R30). -/
  mem : Memory
deriving DecidableEq, Repr

/-- Why a step could stop outside the machine's own state: never. Each of the four fault conditions has an entry that the
spec describes (60_exceptions.md R116), so a fault is a NEXT state with the fault record written and `run` HALTED. This
type has no constructor, so no meaning can answer `fault`. Safe. -/
inductive Fault where
deriving DecidableEq, Repr

/-- Why the model could give an instruction no meaning. -/
inductive Refusal where
  /-- Raised by `exec`'s arm of an instruction that has no meaning yet; no arm of this model does so. Safe. -/
  | notModelled (mnemonic : String)
deriving DecidableEq, Repr

/-- What a meaning and a step answer. -/
abbrev Result := Host.Outcome State Fault Refusal

/-- The state right after reset with no program bytes in the image (70_reset_and_hazards.md R130). `State.boot` is the
state after reset with an image. -/
def State.reset : State where
  regs := #v[0x00#8, 0x00#8, 0x00#8, 0x00#8, 0x00#8, 0x00#8, 0x00#8, Config.stackPointerReset]
  pc := Config.entryPoint
  flags := ⟨false, false, false⟩
  run := .running
  faultCause := .none
  faultInfo := 0
  out := []
  mem := []

end Sys2Proof.Machine
end

