-- ==== Sys2Proof/Machine/Ops.lean ====
section
/-! DEFINITION. The named operations over registers, memory, the program counter and the output stream, and taking a
fault (60_exceptions.md R116). There is no return from a fault (R119): only reset leaves HALTED. An operation that can
raise takes the rest of the handler as its last argument, so that a handler reads like the spec's pseudocode and a raise
leaves the statements before it in effect (00_scope.md R8, 60_exceptions.md R118). -/

namespace Sys2Proof.Machine

/-- `x[r]` (10_state.md R10). -/
def State.reg (s : State) (r : Reg) : Byte := s.regs[r]

/-- `x[r] <- v` (10_state.md R10): no register is hardwired. -/
def State.setReg (s : State) (r : Reg) (v : Byte) : State := { s with regs := s.regs.set r v }

/-- `SP`, another name for `x[7]` (00_scope.md R8, 10_state.md R12). -/
def State.sp (s : State) : Byte := s.reg spReg

/-- The content of the cell at an address; an address that is not listed holds `Config.initialCell`. -/
def Memory.read : Memory → Nat → Byte
  | [], _ => Config.initialCell
  | c :: m, a => if c.1 = a then c.2 else Memory.read m a

/-- The cell at address `a` takes the value `v`, and the listing keeps its canonical form. -/
def Memory.write : Memory → Nat → Byte → Memory
  | [], a, v => if v = Config.initialCell then [] else [(a, v)]
  | c :: m, a, v =>
    if c.1 < a then c :: Memory.write m a v
    else if c.1 = a then (if v = Config.initialCell then m else (a, v) :: m)
    else if v = Config.initialCell then c :: m else (a, v) :: c :: m

/-- Cell `a` takes the value `v` (20_memory.md R33). -/
def State.setCell (s : State) (a : Nat) (v : Byte) : State := { s with mem := s.mem.write a v }

/-- `run <- HALTED`, without a fault (10_state.md R17, 40_halt_load_print.md R70). -/
def State.halt (s : State) : State := { s with run := .halted }

/-- Fault entry, `raise F(info)`: the fault record is written and the run ends; nothing else changes
(60_exceptions.md R116). -/
def State.raise (cause : FaultCause) (info : Int) (s : State) : State :=
  { s with faultCause := cause, faultInfo := info, run := .halted }

/-- The number `fault_cause` holds for each name (60_exceptions.md R111); it is 3 bits wide (10_state.md R23). -/
def FaultCause.number : FaultCause → BitVec 3
  | .none => 0#3
  | .illegalInstruction => 3#3
  | .outOfBounds => 4#3
  | .invalidRegister => 5#3
  | .unsupportedAluOp => 6#3

/-- Goes on with the integer `n` as a byte when it lies in 0..255, and raises OutOfBounds(n) otherwise: the one check
behind every address, program-counter, stack-pointer and return-address value (60_exceptions.md R113,
20_memory.md R34). -/
def inRange (n : Int) (s : State) (k : Byte → Result) : Result :=
  if 0 ≤ n ∧ n ≤ 255 then k (BitVec.ofInt 8 n) else .next (s.raise .outOfBounds n)

/-- `MemRead(a, 1)` at an integer address (20_memory.md R32). -/
def memRead (a : Int) (s : State) (k : Byte → Result) : Result :=
  inRange a s fun address => k (s.mem.read address.toNat)

/-- `MemWrite(a, 1, v)` at an integer address (20_memory.md R33). -/
def memWrite (a : Int) (v : Byte) (s : State) (k : State → Result) : Result :=
  inRange a s fun address => k (s.setCell address.toNat v)

/-- `pc <- t` (00_scope.md R8). -/
def State.setPc (s : State) (target : Byte) : State := { s with pc := target }

/-- `Advance(w)`: the last statement of every handler that does not jump (10_state.md R15). -/
def advance (w : Nat) (s : State) : Result :=
  inRange ((s.pc.toNat : Int) + w) s fun npc => .next (s.setPc npc)

/-- `Output(v)`: appends to the output stream (10_state.md R19). -/
def State.output (s : State) (v : Byte) : State := { s with out := s.out ++ [v] }

/-- `x[7] - 1` as the new stack pointer, the first half of a push (42_stack.md R90, R92): an integer, -1..254. -/
def decrementSp (s : State) (k : Byte → Result) : Result :=
  inRange ((s.sp.toNat : Int) - 1) s k

/-- `x[7] + 1` as the new stack pointer, the second half of a pop (42_stack.md R91, R92): an integer, 1..256. It raises
OutOfBounds and does not wrap; only the ALU wraps (spec decision D10). -/
def incrementSp (s : State) (k : Byte → Result) : Result :=
  inRange ((s.sp.toNat : Int) + 1) s k

/-- The bytes at address `a` and above, `n` of them or as many as memory has. -/
def Memory.readBytes (m : Memory) (a : Nat) : Nat → List Byte
  | 0 => []
  | n + 1 => if a < Config.memorySize then m.read a :: Memory.readBytes m (a + 1) n else []

/-- The bytes at the program counter, up to the longest instruction: what the step fetches from (30_encoding.md R57).
A read changes nothing (20_memory.md R32), so reading a byte that the opcode does not ask for has no effect. -/
def State.fetchBytes (s : State) : List Byte :=
  s.mem.readBytes s.pc.toNat Config.longestInstruction

/-- Fetch and decode (30_encoding.md R57): the instruction at the program counter, or the fault that the step raises and
its information. An opcode without an entry is IllegalInstruction with that byte (R58); an operand byte that would lie
past cell 255 is OutOfBounds with its address (60_exceptions.md R113). -/
def State.fetchDecode (s : State) : Except (FaultCause × Int) Instr :=
  match decode s.fetchBytes with
  | .ok (i, _) => .ok i
  | .error (.illegalInstruction opcode) => .error (.illegalInstruction, opcode.toNat)
  | .error (.missingByte k) => .error (.outOfBounds, s.pc.toNat + k)

/-- Stores bytes at address `a` and above, as far as memory has cells. -/
def Memory.writeBytes (m : Memory) (a : Nat) : List Byte → Memory
  | [] => m
  | b :: bs => if a < Config.memorySize then Memory.writeBytes (m.write a b) (a + 1) bs else m

end Sys2Proof.Machine
end

