-- ==== Sys2Proof/Machine/Operands.lean ====
section
/-! DEFINITION. The operand forms (30_encoding.md R52, R53): a register index that is a whole operand byte. The one
immediate, LDI's `imm8`, is used as it stands (R53), so it needs no operation. -/

namespace Sys2Proof.Machine

/-- The register an operand byte names: 0..7 are R0..R7, 8..255 name none; nothing is masked (30_encoding.md R52). -/
def register? (operand : Byte) : Option Reg :=
  if h : operand.toNat < Config.registerCount then some ⟨operand.toNat, h⟩ else none

/-- Goes on with the register an operand byte names, and raises InvalidRegister with that byte when it names none
(30_encoding.md R52, 60_exceptions.md R114). Every meaning makes this check before it changes any state (R57). -/
def withReg (operand : Byte) (s : State) (k : Reg → Result) : Result :=
  match register? operand with
  | some r => k r
  | none => .next (s.raise .invalidRegister operand.toNat)

/-- Two register operands: operand 1 is checked before operand 2 (30_encoding.md R52, 60_exceptions.md R117). -/
def withRegs (operand1 operand2 : Byte) (s : State) (k : Reg → Reg → Result) : Result :=
  withReg operand1 s fun a => withReg operand2 s fun b => k a b

end Sys2Proof.Machine
end

