-- ==== Sys2Proof/Machine/Flags.lean ====
section
/-! DEFINITION. The flag computation: the unsigned comparison of two bytes (41_alu.md R82). No other instruction computes
a flag (10_state.md R16). -/

namespace Sys2Proof.Machine

/-- E, L and G of the comparison of `u` with `v` as unsigned integers (41_alu.md R82). -/
def compareFlags (u v : Byte) : Flags where
  equal := decide (u.toNat = v.toNat)
  less := decide (u.toNat < v.toNat)
  greater := decide (u.toNat > v.toNat)

/-- `CMP` writes all three flags at once (10_state.md R16). -/
def State.setFlags (s : State) (f : Flags) : State := { s with flags := f }

end Sys2Proof.Machine
end

