-- ==== Sys2Proof/Machine/Alu.lean ====
section
/-! DEFINITION. The ALU and the meanings of MUL, ADD and CMP (41_alu.md). -/

namespace Sys2Proof.Machine

/-- The ALU's operation select, a closed set (41_alu.md R84); there is no subtract (R85). -/
inductive AluOp where
  | add
  | mul
  | cmp
deriving DecidableEq, Repr

/-- `(u + v) mod 256`, on integers and then reduced (41_alu.md R81, R83). -/
def aluAdd (u v : Byte) : Byte := BitVec.ofNat 8 ((u.toNat + v.toNat) % 256)

/-- `(u * v) mod 256`, on integers and then reduced (41_alu.md R80, R83). -/
def aluMul (u v : Byte) : Byte := BitVec.ofNat 8 ((u.toNat * v.toNat) % 256)

/-- What the ALU does with registers `a` and `b`: ADD and MUL write register `a` and no flag, CMP writes the flags and no
register (41_alu.md R80, R81, R82). Both operands are read before the result is written. -/
def State.alu (op : AluOp) (a b : Reg) (s : State) : State :=
  match op with
  | .add => s.setReg a (aluAdd (s.reg a) (s.reg b))
  | .mul => s.setReg a (aluMul (s.reg a) (s.reg b))
  | .cmp => s.setFlags (compareFlags (s.reg a) (s.reg b))

/-- An ALU instruction of format RR: the operand checks, the operation, `Advance(3)` (30_encoding.md R57, 41_alu.md). -/
def aluInstruction (op : AluOp) (a b : Byte) (s : State) : Result :=
  withRegs a b s fun ra rb => advance 3 (s.alu op ra rb)

/-- MUL a, b: `x[a] <- (x[a] * x[b]) mod 256; Advance(3)` (R80). -/
def execMul (a b : Byte) (s : State) : Result := aluInstruction .mul a b s

/-- ADD a, b: `x[a] <- (x[a] + x[b]) mod 256; Advance(3)` (R81). -/
def execAdd (a b : Byte) (s : State) : Result := aluInstruction .add a b s

/-- CMP a, b: E, L, G from the unsigned comparison of x[a] with x[b]; `Advance(3)` (R82). -/
def execCmp (a b : Byte) (s : State) : Result := aluInstruction .cmp a b s

end Sys2Proof.Machine
end

