-- ==== Sys2Proof/Machine/Control.lean ====
section
/-! DEFINITION. The meanings of CALL, RET, JMP, JEQ and JNE (43_control_transfer.md). A target is a register or memory
byte, so it is a legal `pc` and needs no check (10_state.md R15, R105). -/

namespace Sys2Proof.Machine

/-- The address of the byte after a CALL, as the byte that CALL pushes; 256 is no address and raises
(43_control_transfer.md R100, spec decision D11). -/
def returnAddress (s : State) (k : Byte → Result) : Result :=
  inRange ((s.pc.toNat : Int) + 2) s k

/-- CALL a (R100): the return address is checked before the stack pointer, both before any effect; `x[a]` is read after
`x[7]` was written, so CALL R7 jumps to the decremented stack pointer (spec decision D14). -/
def execCall (a : Byte) (s : State) : Result :=
  withReg a s fun ra =>
  returnAddress s fun ret =>
  decrementSp s fun nsp =>
  let moved := s.setReg spReg nsp
  memWrite nsp.toNat ret moved fun stored =>
  .next (stored.setPc (stored.reg ra))

/-- RET (R101): a stack pointer that would be 256 raises before any effect (spec decision D10). -/
def execRet (s : State) : Result :=
  memRead s.sp.toNat s fun v =>
  incrementSp s fun nsp =>
  .next ((s.setReg spReg nsp).setPc v)

/-- JMP a: `pc <- x[a]` (R102). -/
def execJmp (a : Byte) (s : State) : Result :=
  withReg a s fun ra => .next (s.setPc (s.reg ra))

/-- JEQ a: `pc <- x[a]` if E = 1, else `Advance(2)` (R103). The register index is checked whether or not the jump is
taken (30_encoding.md R52). -/
def execJeq (a : Byte) (s : State) : Result :=
  withReg a s fun ra => if s.flags.equal then .next (s.setPc (s.reg ra)) else advance 2 s

/-- JNE a: `pc <- x[a]` if E = 0, else `Advance(2)` (R104). -/
def execJne (a : Byte) (s : State) : Result :=
  withReg a s fun ra => if s.flags.equal then advance 2 s else .next (s.setPc (s.reg ra))

end Sys2Proof.Machine
end

