-- ==== Sys2Proof/Machine/HaltLoadPrint.lean ====
section
/-! DEFINITION. The meanings of HLT, LDI and PRN (40_halt_load_print.md). -/

namespace Sys2Proof.Machine

/-- HLT: `run <- HALTED`; `pc` and the fault record are not written (R70). -/
def execHlt (s : State) : Result := .next s.halt

/-- LDI a, imm8: `x[a] <- imm8; Advance(3)` (R71). -/
def execLdi (a imm8 : Byte) (s : State) : Result :=
  withReg a s fun ra => advance 3 (s.setReg ra imm8)

/-- PRN a: `Output(x[a]); Advance(2)` (R72). -/
def execPrn (a : Byte) (s : State) : Result :=
  withReg a s fun ra => advance 2 (s.output (s.reg ra))

end Sys2Proof.Machine
end

