-- ==== Sys2Proof/Machine/Stack.lean ====
section
/-! DEFINITION. The meanings of PUSH and POP (42_stack.md). -/

namespace Sys2Proof.Machine

/-- PUSH a (R90): `x[7]` moves down first, then `x[a]` is read and stored, so PUSH R7 stores the decremented value
(spec decision D14). `x[7] = 0` raises before any effect (D9). -/
def execPush (a : Byte) (s : State) : Result :=
  withReg a s fun ra =>
  decrementSp s fun nsp =>
  let moved := s.setReg spReg nsp
  memWrite nsp.toNat (moved.reg ra) moved fun stored =>
  advance 2 stored

/-- POP a (R91): `x[a]` is written first, then `x[7]` is read and incremented, so POP R7 ends with the popped byte plus 1
(spec decision D14). A stack pointer that would be 256 raises after `x[a]` has been written (D10). -/
def execPop (a : Byte) (s : State) : Result :=
  withReg a s fun ra =>
  memRead s.sp.toNat s fun v =>
  let loaded := s.setReg ra v
  incrementSp loaded fun nsp =>
  advance 2 (loaded.setReg spReg nsp)

end Sys2Proof.Machine
end

