-- ==== Sys2Proof/Machine/Step.lean ====
section
/-! DEFINITION. The step: fetch, decode, dispatch (30_encoding.md R57), and placing an instruction where it fetches. -/

namespace Sys2Proof.Machine

/-- One step (30_encoding.md R57). The handler is the only writer of `pc`; the step adds nothing after it. A HALTED
machine's state does not change until reset (10_state.md R17, 60_exceptions.md R125): its step is the idle step (log 5,
DESIGN CHOICE). -/
def step (s : State) : Host.Outcome State Fault Refusal :=
  match s.run with
  | .halted => .next s
  | .running =>
    match s.fetchDecode with
    | .ok i => exec i s
    | .error (cause, info) => .next (s.raise cause info)

/-- The state with one opcode-table word stored at the program counter, zero bytes above it up to the longest
instruction, as far as memory has cells. It stands for the host's load of a program (70_reset_and_hazards.md R132,
log 13); the machine must be RUNNING to fetch it, as it is after reset. -/
def State.withFetchWord (s : State) (nbits w : Nat) : State :=
  { s with mem := s.mem.writeBytes s.pc.toNat (tableWordBytes nbits w) }

end Sys2Proof.Machine
end

