-- ==== Sys2Proof/Machine/Ports.lean ====
section
/-! DEFINITION. The block's boundary (10_state.md R23, 70_reset_and_hazards.md R131, R132): what the host does while the
block is held in reset, and the output signals as functions of the state. `clk` is the step itself. -/

namespace Sys2Proof.Machine

/-- The image load port (`ld_we`, `ld_addr`, `ld_data`): one write of a memory cell, usable only in reset
(10_state.md R23). -/
def State.loadCell (s : State) (write : Byte × Byte) : State :=
  s.setCell write.1.toNat write.2

/-- The state when `rst` goes to 0 after these writes of the load port, oldest first: everything at its reset value
(70_reset_and_hazards.md R131), memory zeroed and then written. -/
def State.afterReset (writes : List (Byte × Byte)) : State :=
  writes.foldl State.loadCell State.reset

/-- The load-port writes that copy an image into memory from address `a` upward (70_reset_and_hazards.md R132). -/
def imageWrites (a : Nat) : List Byte → List (Byte × Byte)
  | [] => []
  | b :: bs => (BitVec.ofNat 8 a, b) :: imageWrites (a + 1) bs

/-- Reset with a program image: the machine the host starts (70_reset_and_hazards.md R130, R131, R133). The host supplies
at most 256 bytes; a longer image is outside the model (R132, spec decision D21) and gives none. -/
def State.boot (image : List Byte) : Option State :=
  if image.length ≤ Config.memorySize then some (State.afterReset (imageWrites 0 image)) else none

/-- `halted`: 1 when `run` = HALTED (10_state.md R23). -/
def State.haltedPort (s : State) : Bool := decide (s.run = .halted)

/-- `fault_cause`, 3 bits (10_state.md R23, 60_exceptions.md R111). -/
def State.faultCausePort (s : State) : BitVec 3 := s.faultCause.number

/-- `fault_info`, the low 9 bits of the integer (10_state.md R23). -/
def State.faultInfoPort (s : State) : BitVec 9 := BitVec.ofInt 9 s.faultInfo

/-- `pc_o` (10_state.md R23). -/
def State.pcPort (s : State) : Byte := s.pc

/-- `out_valid` and `out_data` of the step from this state: the value it emits, if it emits one (10_state.md R23). -/
def State.outPort (s : State) : Option Byte :=
  match step s with
  | .next t => t.out[s.out.length]?
  | .fault _ => none
  | .refused _ => none

end Sys2Proof.Machine
end

