-- ==== Sys2Proof/Safety.lean ====
section
/-! DEFINITION. What counts as a good state and a good end of a run, and the words the statements use: the spec's state
invariants (10_state.md R22), the register sets (10_state.md R11), agreement of two states. -/

namespace Sys2Proof

/-- The registers an instruction reads, as register numbers; JEQ and JNE read their target only when they jump
(10_state.md R11, column "registers read"). `e` is the Equal flag. -/
def Instr.readsRegisters (e : Bool) : Instr → List Nat
  | .hlt => []
  | .ldi _ _ => []
  | .prn a => [a.toNat]
  | .mul a b => [a.toNat, b.toNat]
  | .add a b => [a.toNat, b.toNat]
  | .cmp a b => [a.toNat, b.toNat]
  | .push a => [7, a.toNat]
  | .pop _ => [7]
  | .call a => [7, a.toNat]
  | .ret => [7]
  | .jmp a => [a.toNat]
  | .jeq a => if e then [a.toNat] else []
  | .jne a => if e then [] else [a.toNat]

/-- The registers an instruction writes, as register numbers (10_state.md R11, column "registers written"). -/
def Instr.writesRegisters : Instr → List Nat
  | .hlt => []
  | .ldi a _ => [a.toNat]
  | .prn _ => []
  | .mul a _ => [a.toNat]
  | .add a _ => [a.toNat]
  | .cmp _ _ => []
  | .push _ => [7]
  | .pop a => [a.toNat, 7]
  | .call _ => [7]
  | .ret => [7]
  | .jmp _ => []
  | .jeq _ => []
  | .jne _ => []

/-- The instruction ends in `Advance` of its length; JEQ and JNE do when they do not jump (10_state.md R15). `e` is the
Equal flag. -/
def Instr.advances (e : Bool) : Instr → Bool
  | .hlt => false
  | .ldi _ _ => true
  | .prn _ => true
  | .mul _ _ => true
  | .add _ _ => true
  | .cmp _ _ => true
  | .push _ => true
  | .pop _ => true
  | .call _ => false
  | .ret => false
  | .jmp _ => false
  | .jeq _ => !e
  | .jne _ => e

end Sys2Proof

namespace Sys2Proof.Machine

/-- At most one of E, L, G is 1 (10_state.md R16, R22). -/
def State.flagsExclusive (s : State) : Prop :=
  ¬(s.flags.equal = true ∧ s.flags.less = true) ∧ ¬(s.flags.equal = true ∧ s.flags.greater = true) ∧
    ¬(s.flags.less = true ∧ s.flags.greater = true)

/-- Exactly one of E, L, G is 1, as after every completed CMP (10_state.md R22). -/
def State.oneFlagSet (s : State) : Prop := [s.flags.equal, s.flags.less, s.flags.greater].count true = 1

/-- The fault record says what R111's table allows and agrees with the memory at `pc`, which names the instruction that
raised the fault (10_state.md R18, R22, 60_exceptions.md R111, R115, R118). -/
def State.recordExplained (s : State) : Prop :=
  match s.faultCause with
  | .none => s.faultInfo = 0
  | .illegalInstruction =>
    s.faultInfo = (s.mem.read s.pc.toNat).toNat ∧ dispatch (s.mem.read s.pc.toNat) = none
  | .outOfBounds => s.faultInfo = -1 ∨ s.faultInfo = 256
  | .invalidRegister =>
    8 ≤ s.faultInfo ∧
      (s.faultInfo = (s.mem.read (s.pc.toNat + 1)).toNat ∨ s.faultInfo = (s.mem.read (s.pc.toNat + 2)).toNat)
  | .unsupportedAluOp => False

/-- `fault_cause` is NONE while RUNNING, and HALTED with NONE means that `pc` names an HLT (10_state.md R22). -/
def State.haltExplained (s : State) : Prop :=
  match s.run with
  | .running => s.faultCause = .none
  | .halted => s.faultCause = .none → s.mem.read s.pc.toNat = 0x01#8

/-- The state invariant: memory is in its canonical form, and what 10_state.md R22 says of every state reachable from
reset. -/
def State.Inv (s : State) : Prop :=
  s.mem.wf ∧ s.flagsExclusive ∧ s.recordExplained ∧ s.haltExplained

/-- A successful end of a run: "a claim that a program halts must ask for `run` = HALTED and `fault_cause` = 0"
(60_exceptions.md R116). -/
def State.haltedCleanly (s : State) : Prop := s.run = .halted ∧ s.faultCause = .none

/-- The run state and the fault record are the same in both states. -/
def State.sameRecord (s t : State) : Prop :=
  t.run = s.run ∧ t.faultCause = s.faultCause ∧ t.faultInfo = s.faultInfo

/-- `t` was reached from `s` by a raise of `cause` with `info`: the record is written, the run has ended, and `pc` still
names the instruction (60_exceptions.md R116, R118). -/
def State.raisedFrom (s t : State) (cause : FaultCause) (info : Int) : Prop :=
  t.faultCause = cause ∧ t.faultInfo = info ∧ t.run = .halted ∧ t.pc = s.pc

/-- The two states agree on everything an instruction can read: registers, `pc`, the Equal flag, `run` and every cell.
They may differ in L, G, the output stream and the fault record, which no instruction reads (10_state.md R16, R18,
R19). -/
def State.agreesOnReadable (s t : State) : Prop :=
  (∀ r, t.reg r = s.reg r) ∧ t.pc = s.pc ∧ t.flags.equal = s.flags.equal ∧ t.run = s.run ∧
    ∀ a, t.mem.read a = s.mem.read a

end Sys2Proof.Machine
end

