-- ==== Sys2Proof/Certificates/Slice0/Obligations.lean ====
section
/-! DEFINITION. The statements for the provers. Each docstring names the rules of spec/ it formalises. Where a clause
rests on a decision D<n> of spec/92_eei_decisions.md, which that file calls the spec's own choice, the docstring names it,
and the entry's basis is 'derived'.

What is the model's in every statement: `Memory.wf`, the canonical form of a memory (log 4); that a step of a HALTED machine
answers the same state, where a statement about `step` does not ask for RUNNING (log 5); and that a fault is the next state
`s.raise cause info`, not an outcome of its own (log 6). -/

open Sys2Proof Sys2Proof.Machine

/-! ### Encoding -/

/-- 30_encoding.md R50, R51, R54, R56: bytes decode to an instruction exactly when they begin with its encoding, and the
decoder gives back the bytes after it. No operand bit is dropped, and no other byte string decodes to it. -/
def Obligations.DecodeExactlyInvertsEncode : Prop :=
  ∀ (bs rest : List Byte) (i : Instr), decode bs = .ok (i, rest) ↔ bs = encode i ++ rest

/-- 30_encoding.md R54: the 13 rows of the opcode map, matched on all eight bits of byte 0, with their operands and
lengths, and nothing else. -/
def Obligations.OpcodeMapIsTheThirteenRows : Prop :=
  ∀ (a b imm8 op : Byte) (rest : List Byte),
    decode (0b00000001#8 :: rest) = .ok (.hlt, rest) ∧
    decode (0b10000010#8 :: a :: imm8 :: rest) = .ok (.ldi a imm8, rest) ∧
    decode (0b01000111#8 :: a :: rest) = .ok (.prn a, rest) ∧
    decode (0b10100010#8 :: a :: b :: rest) = .ok (.mul a b, rest) ∧
    decode (0b10100000#8 :: a :: b :: rest) = .ok (.add a b, rest) ∧
    decode (0b01000101#8 :: a :: rest) = .ok (.push a, rest) ∧
    decode (0b01000110#8 :: a :: rest) = .ok (.pop a, rest) ∧
    decode (0b01010000#8 :: a :: rest) = .ok (.call a, rest) ∧
    decode (0b00010001#8 :: rest) = .ok (.ret, rest) ∧
    decode (0b10100111#8 :: a :: b :: rest) = .ok (.cmp a b, rest) ∧
    decode (0b01010100#8 :: a :: rest) = .ok (.jmp a, rest) ∧
    decode (0b01010101#8 :: a :: rest) = .ok (.jeq a, rest) ∧
    decode (0b01010110#8 :: a :: rest) = .ok (.jne a, rest) ∧
    (op ∉ [0x01#8, 0x82#8, 0x47#8, 0xA2#8, 0xA0#8, 0x45#8, 0x46#8, 0x50#8, 0x11#8, 0xA7#8, 0x54#8, 0x55#8, 0x56#8] →
      decode (op :: rest) = .error (.illegalInstruction op))

/-- A few words of each family, written out from 30_encoding.md R54 and from the worked image of 20_memory.md R35. -/
def Obligations.HandWrittenWordsDecode : Prop :=
  decode [0b10000010#8, 0#8, 8#8, 0b01000111#8, 0#8, 0b00000001#8] =
      .ok (.ldi 0#8 8#8, [0b01000111#8, 0#8, 0b00000001#8]) ∧
    decode [0b01000111#8, 0#8, 0b00000001#8] = .ok (.prn 0#8, [0b00000001#8]) ∧
    decode [0b00000001#8] = .ok (.hlt, []) ∧
    decode [0b10100000#8, 3#8, 5#8] = .ok (.add 3#8 5#8, []) ∧
    decode [0b01000101#8, 6#8] = .ok (.push 6#8, []) ∧
    decode [0b01010101#8, 4#8] = .ok (.jeq 4#8, []) ∧
    decode [0b00010001#8] = .ok (.ret, [])

/-- 30_encoding.md R51: the length is a property of the opcode and of nothing else, and over the 13 defined opcodes
bits[7:6] equal the operand count, bit 5 marks the three ALU opcodes, and bit 4 marks the five that can write `pc` with a
jump target. -/
def Obligations.LengthFollowsFromTheOpcode : Prop :=
  (∀ i j : Instr, i.opcode = j.opcode → (encode i).length = (encode j).length) ∧
    ∀ i : Instr,
      (encode i).length = 1 + (i.opcode.extractLsb 7 6).toNat ∧
      (i.opcode.getLsbD 5 = true ↔ ∃ a b, i = .mul a b ∨ i = .add a b ∨ i = .cmp a b) ∧
      (i.opcode.getLsbD 4 = true ↔ ∃ a, i = .call a ∨ i = .ret ∨ i = .jmp a ∨ i = .jeq a ∨ i = .jne a)

/-! ### Memory and the fault record -/

/-- 20_memory.md R32: `MemRead(a, 1)` for every integer `a`. -/
def Obligations.MemReadGivesTheCellOrRaises : Prop :=
  ∀ (s : State) (k : Byte → Result),
    (∀ a : Int, a < 0 ∨ 255 < a → memRead a s k = .next (s.raise .outOfBounds a)) ∧
    (∀ a : Nat, a ≤ 255 → memRead a s k = k (s.mem.read a))

/-- 20_memory.md R33: `MemWrite(a, 1, v)` for every integer `a`. The premise `s.mem.wf` and the clause `m.wf` are the model's
and not R33's: the canonical form is how the model holds memory (log 4, DEDUCED). -/
def Obligations.MemWriteChangesOneCellOrRaises : Prop :=
  ∀ (s : State) (v : Byte),
    (∀ (a : Int) (k : State → Result), a < 0 ∨ 255 < a → memWrite a v s k = .next (s.raise .outOfBounds a)) ∧
    (∀ a : Nat, a ≤ 255 → s.mem.wf → ∃ m : Memory,
      (∀ k : State → Result, memWrite a v s k = k { s with mem := m }) ∧
      m.read a = v ∧ (∀ b, b ≠ a → m.read b = s.mem.read b) ∧ m.wf)

/-- The canonical form is the model's way of holding the 256 cells of 20_memory.md R30 (log 4, DEDUCED): two memories in it
that hold the same cells are the same data. -/
def Obligations.MemoriesWithEqualCellsAreEqual : Prop :=
  ∀ m n : Memory, m.wf → n.wf → (∀ a, a < 256 → m.read a = n.read a) → m = n

/-- 60_exceptions.md R116: `raise F(info)` writes the fault record, ends the run, and changes nothing else. -/
def Obligations.RaiseWritesOnlyTheRecordAndRunState : Prop :=
  ∀ (s : State) (cause : FaultCause) (info : Int),
    (s.raise cause info).faultCause = cause ∧ (s.raise cause info).faultInfo = info ∧
    (s.raise cause info).run = .halted ∧ (∀ r, (s.raise cause info).reg r = s.reg r) ∧
    (s.raise cause info).pc = s.pc ∧ (s.raise cause info).flags = s.flags ∧
    (s.raise cause info).out = s.out ∧ (s.raise cause info).mem = s.mem

/-- 60_exceptions.md R112, 30_encoding.md R58: 243 byte values are no opcode; a step that fetches one raises
IllegalInstruction with that byte before it fetches an operand (also at `pc` = 255) and before any state is changed; and
no handler raises it. -/
def Obligations.UndefinedOpcodeRaisesIllegalInstruction : Prop :=
  ((List.range 256).filter fun n => (dispatch (BitVec.ofNat 8 n)).isNone).length = 243 ∧
  (∀ s : State, s.run = .running → dispatch (s.mem.read s.pc.toNat) = none →
    step s = .next (s.raise .illegalInstruction (s.mem.read s.pc.toNat).toNat)) ∧
  (∀ (i : Instr) (s t : State), exec i s = .next t → s.faultCause ≠ .illegalInstruction →
    t.faultCause ≠ .illegalInstruction)

/-- 30_encoding.md R57, 60_exceptions.md R113 (its first two rows), R117: an operand byte past cell 255 raises
OutOfBounds(256) before any state is changed and before any register operand is checked. The order is the spec's decision
D6. -/
def Obligations.OperandFetchPastMemoryRaisesOutOfBounds : Prop :=
  ∀ (s : State) (h : Handler), s.run = .running → dispatch (s.mem.read s.pc.toNat) = some h →
    255 < s.pc.toNat + h.operandCount → step s = .next (s.raise .outOfBounds 256)

/-- 30_encoding.md R52, 60_exceptions.md R114: the first register operand above 7, in operand order, raises
InvalidRegister with that byte and leaves all other state as it was, for every instruction, JEQ and JNE that would not jump
among them; and an instruction whose register operands are 0..7 never raises it. Point and order of the check are the
spec's decision D6; the whole byte as the index is its decision D13. -/
def Obligations.RegisterOperandAboveSevenRaisesInvalidRegister : Prop :=
  ∀ (i : Instr) (s : State),
    (∀ bad : Byte, i.registerOperands.find? (fun o => decide (7 < o.toNat)) = some bad →
      exec i s = .next (s.raise .invalidRegister bad.toNat)) ∧
    (∀ t : State, i.WellFormed → exec i s = .next t → s.faultCause ≠ .invalidRegister →
      t.faultCause ≠ .invalidRegister)

/-- 60_exceptions.md R113, the stack-pointer and return-address rows; 42_stack.md R90, R91; 43_control_transfer.md R100,
R101. PUSH, CALL and RET raise before any effect; POP raises after `x[a]` has been written. CALL's return address is
checked before its stack pointer (R117). These are the spec's decisions D9, D10, D11. -/
def Obligations.StackPointerAndReturnAddressFaults : Prop :=
  ∀ (a : Byte) (r : Reg) (s : State), a.toNat = r.val →
    (s.sp.toNat = 0 → exec (.push a) s = .next (s.raise .outOfBounds (-1))) ∧
    (r ≠ spReg → s.sp.toNat = 255 →
      exec (.pop a) s = .next ((s.setReg r (s.mem.read 255)).raise .outOfBounds 256)) ∧
    (r = spReg → s.mem.read s.sp.toNat = 255#8 →
      exec (.pop a) s = .next ((s.setReg spReg 255#8).raise .outOfBounds 256)) ∧
    (s.pc.toNat = 254 → exec (.call a) s = .next (s.raise .outOfBounds 256)) ∧
    (s.pc.toNat ≤ 253 → s.sp.toNat = 0 → exec (.call a) s = .next (s.raise .outOfBounds (-1))) ∧
    (s.sp.toNat = 255 → exec .ret s = .next (s.raise .outOfBounds 256))

/-- 10_state.md R15, 60_exceptions.md R113 (the Advance rows), R118, for LDI, PRN, MUL, ADD, CMP, PUSH, POP and a JEQ or
JNE that does not jump: what the instruction does does not depend on where it stands, and where its advance would leave
0..255 the result is committed, OutOfBounds is raised with the address, and `pc` keeps the instruction's address. `t` is
what the instruction does at address 0. The moment of the fault is the spec's decision D8. -/
def Obligations.AdvancePastTheTopCommitsTheResultThenRaises : Prop :=
  ∀ (i : Instr) (s t : State), i.advances s.flags.equal = true → exec i (s.setPc 0#8) = .next t →
    t.pc.toNat = i.length →
    (∀ p : Byte, p.toNat = s.pc.toNat + i.length → exec i s = .next (t.setPc p)) ∧
    (255 < s.pc.toNat + i.length →
      exec i s = .next ((t.setPc s.pc).raise .outOfBounds (s.pc.toNat + i.length)))

/-! ### What each instruction does -/

/-- 40_halt_load_print.md R70: HLT ends the run and changes nothing else. That `pc` stays is the spec's decision D12. -/
def Obligations.HltHaltsAndChangesNothingElse : Prop :=
  ∀ s : State, ∃ t, exec .hlt s = .next t ∧ t.run = .halted ∧ t.pc = s.pc ∧ (∀ r, t.reg r = s.reg r) ∧
    t.flags = s.flags ∧ t.faultCause = s.faultCause ∧ t.faultInfo = s.faultInfo ∧ t.out = s.out ∧
    ∀ a, t.mem.read a = s.mem.read a

/-- 40_halt_load_print.md R71: LDI writes the immediate to `x[a]`, R7 included, and advances by 3. -/
def Obligations.LdiLoadsTheImmediate : Prop :=
  ∀ (a imm8 : Byte) (r : Reg) (s : State), a.toNat = r.val → s.pc.toNat + 3 ≤ 255 →
    ∃ t, exec (.ldi a imm8) s = .next t ∧ t.reg r = imm8 ∧ t.pc.toNat = s.pc.toNat + 3 ∧ s.sameRecord t

/-- 30_encoding.md R53: the immediate is the whole of operand byte 2, used as it stands, and every value is legal. Said of
the step: wherever LDI stands in memory with a register operand 0..7, `x[a]` receives the byte at `pc + 2`. -/
def Obligations.LdiTakesOperandByteTwoAsItStands : Prop :=
  ∀ (s : State) (r : Reg), s.run = .running → s.pc.toNat + 2 ≤ 255 → s.mem.read s.pc.toNat = 0x82#8 →
    (s.mem.read (s.pc.toNat + 1)).toNat = r.val →
    ∃ t, step s = .next t ∧ t.reg r = s.mem.read (s.pc.toNat + 2)

/-- 40_halt_load_print.md R72: PRN appends `x[a]` to the output stream and advances by 2. The stream as a list of bytes is
the spec's decision D15. -/
def Obligations.PrnEmitsTheRegister : Prop :=
  ∀ (a : Byte) (r : Reg) (s : State), a.toNat = r.val → s.pc.toNat + 2 ≤ 255 →
    ∃ t, exec (.prn a) s = .next t ∧ t.out = s.out ++ [s.reg r] ∧ t.pc.toNat = s.pc.toNat + 2 ∧ s.sameRecord t

/-- 41_alu.md R80, R81: MUL and ADD write the product and the sum modulo 256 to `x[a]`, whatever the operand values, the
same register twice and R7 included, and advance by 3. -/
def Obligations.MulAndAddWriteTheResultModulo256 : Prop :=
  ∀ (a b : Byte) (ra rb : Reg) (s : State), a.toNat = ra.val → b.toNat = rb.val → s.pc.toNat + 3 ≤ 255 →
    (∃ t, exec (.mul a b) s = .next t ∧ (t.reg ra).toNat = ((s.reg ra).toNat * (s.reg rb).toNat) % 256 ∧
      t.pc.toNat = s.pc.toNat + 3 ∧ s.sameRecord t) ∧
    (∃ t, exec (.add a b) s = .next t ∧ (t.reg ra).toNat = ((s.reg ra).toNat + (s.reg rb).toNat) % 256 ∧
      t.pc.toNat = s.pc.toNat + 3 ∧ s.sameRecord t)

/-- 41_alu.md R82: CMP writes all three flags from the unsigned comparison of `x[a]` with `x[b]`, exactly one ends as 1,
and it advances by 3. Three one-bit flags are the spec's resolution C4. -/
def Obligations.CmpSetsExactlyOneFlag : Prop :=
  ∀ (a b : Byte) (ra rb : Reg) (s : State), a.toNat = ra.val → b.toNat = rb.val → s.pc.toNat + 3 ≤ 255 →
    ∃ t, exec (.cmp a b) s = .next t ∧ t.pc.toNat = s.pc.toNat + 3 ∧ s.sameRecord t ∧
      (t.flags.equal = true ↔ (s.reg ra).toNat = (s.reg rb).toNat) ∧
      (t.flags.less = true ↔ (s.reg ra).toNat < (s.reg rb).toNat) ∧
      (t.flags.greater = true ↔ (s.reg ra).toNat > (s.reg rb).toNat) ∧
      t.oneFlagSet

/-- 42_stack.md R90: PUSH moves `x[7]` down by one, stores `x[a]` as it is after that at the new `x[7]`, and advances by 2.
For `a` = 7 the stored value is the decremented stack pointer (the spec's decision D14). -/
def Obligations.PushStoresBelowTheStackPointer : Prop :=
  ∀ (a : Byte) (r : Reg) (s : State), a.toNat = r.val → s.pc.toNat + 2 ≤ 255 → 1 ≤ s.sp.toNat → s.mem.wf →
    ∃ t, exec (.push a) s = .next t ∧ t.sp.toNat + 1 = s.sp.toNat ∧ t.mem.read t.sp.toNat = t.reg r ∧
      (r ≠ spReg → t.reg r = s.reg r) ∧ t.pc.toNat = s.pc.toNat + 2 ∧ s.sameRecord t

/-- 42_stack.md R91: POP loads the cell at `x[7]` into `x[a]`, moves `x[7]` up by one, and advances by 2; the popped cell
keeps its value. For `a` = 7 the register ends as the popped byte plus 1 (the spec's decision D14). -/
def Obligations.PopLoadsFromTheStackPointer : Prop :=
  ∀ (a : Byte) (r : Reg) (s : State), a.toNat = r.val → s.pc.toNat + 2 ≤ 255 →
    (r ≠ spReg → s.sp.toNat ≤ 254 →
      ∃ t, exec (.pop a) s = .next t ∧ t.reg r = s.mem.read s.sp.toNat ∧ t.sp.toNat = s.sp.toNat + 1 ∧
        t.mem.read s.sp.toNat = s.mem.read s.sp.toNat ∧ t.pc.toNat = s.pc.toNat + 2 ∧ s.sameRecord t) ∧
    (r = spReg → (s.mem.read s.sp.toNat).toNat ≤ 254 →
      ∃ t, exec (.pop a) s = .next t ∧ t.sp.toNat = (s.mem.read s.sp.toNat).toNat + 1 ∧
        t.mem.read s.sp.toNat = s.mem.read s.sp.toNat ∧ t.pc.toNat = s.pc.toNat + 2 ∧ s.sameRecord t)

/-- 43_control_transfer.md R100: CALL pushes the address of the instruction after it and jumps to `x[a]` as it is after
`x[7]` was written; for `a` = 7 the target is the decremented stack pointer (the spec's decision D14). -/
def Obligations.CallPushesTheReturnAddressAndJumps : Prop :=
  ∀ (a : Byte) (r : Reg) (s : State), a.toNat = r.val → s.pc.toNat + 2 ≤ 255 → 1 ≤ s.sp.toNat → s.mem.wf →
    ∃ t, exec (.call a) s = .next t ∧ t.sp.toNat + 1 = s.sp.toNat ∧
      (t.mem.read t.sp.toNat).toNat = s.pc.toNat + 2 ∧ t.pc = t.reg r ∧ (r ≠ spReg → t.reg r = s.reg r) ∧
      s.sameRecord t

/-- 43_control_transfer.md R101: RET jumps to the byte at the stack top and moves `x[7]` up by one. -/
def Obligations.RetPopsTheProgramCounter : Prop :=
  ∀ s : State, s.sp.toNat ≤ 254 →
    ∃ t, exec .ret s = .next t ∧ t.pc = s.mem.read s.sp.toNat ∧ t.sp.toNat = s.sp.toNat + 1 ∧ s.sameRecord t

/-- 43_control_transfer.md R102, R105: JMP goes to `x[a]`, whatever address that is and wherever the JMP stands. -/
def Obligations.JmpGoesToTheRegister : Prop :=
  ∀ (a : Byte) (r : Reg) (s : State), a.toNat = r.val →
    ∃ t, exec (.jmp a) s = .next t ∧ t.pc = s.reg r ∧ s.sameRecord t

/-- 43_control_transfer.md R103, R104: JEQ jumps to `x[a]` if E = 1 and otherwise advances by 2; JNE is its exact
complement. A taken jump needs no room above the instruction. -/
def Obligations.JeqAndJneAreComplementaryOnEqual : Prop :=
  ∀ (a : Byte) (r : Reg) (s : State), a.toNat = r.val →
    (s.flags.equal = true → ∃ t, exec (.jeq a) s = .next t ∧ t.pc = s.reg r ∧ s.sameRecord t) ∧
    (s.flags.equal = false → s.pc.toNat + 2 ≤ 255 →
      ∃ t, exec (.jeq a) s = .next t ∧ t.pc.toNat = s.pc.toNat + 2 ∧ s.sameRecord t) ∧
    (s.flags.equal = false → ∃ t, exec (.jne a) s = .next t ∧ t.pc = s.reg r ∧ s.sameRecord t) ∧
    (s.flags.equal = true → s.pc.toNat + 2 ≤ 255 →
      ∃ t, exec (.jne a) s = .next t ∧ t.pc.toNat = s.pc.toNat + 2 ∧ s.sameRecord t)

/-- 41_alu.md R83: unsigned arithmetic modulo 256, commutative, equal to 8-bit two's-complement addition and to the low
byte of a two's-complement product, while the comparison is unsigned only. -/
def Obligations.ArithmeticWrapsAndCommutes : Prop :=
  ∀ u v : Byte,
    (aluAdd u v).toNat = (u.toNat + v.toNat) % 256 ∧ (aluMul u v).toNat = (u.toNat * v.toNat) % 256 ∧
    aluAdd u v = aluAdd v u ∧ aluMul u v = aluMul v u ∧
    (aluAdd u v).toInt = (u.toInt + v.toInt).bmod 256 ∧ (aluMul u v).toInt = (u.toInt * v.toInt).bmod 256 ∧
    ((compareFlags u v).less = true ↔ u.toNat < v.toNat) ∧
    ((compareFlags u v).greater = (compareFlags v u).less) ∧ ((compareFlags u v).equal = (compareFlags v u).equal)

/-! ### Frames: what an instruction leaves unchanged, a raise included -/

/-- LDI, MUL and ADD (40_halt_load_print.md R71, 41_alu.md R80, R81): only `x[a]` and `pc` change, unless a fault is
raised; then the fault record and `run` change and `pc` does not. -/
def Obligations.FrameOfLdiMulAdd : Prop :=
  ∀ (a b imm8 : Byte) (s t : State) (i : Instr), i ∈ [Instr.ldi a imm8, Instr.mul a b, Instr.add a b] →
    exec i s = .next t →
    (∀ r : Reg, r.val ≠ a.toNat → t.reg r = s.reg r) ∧ t.flags = s.flags ∧ t.out = s.out ∧
    (∀ c, t.mem.read c = s.mem.read c) ∧ (s.sameRecord t ∨ ∃ cause info, s.raisedFrom t cause info)

/-- CMP, PRN, JMP, JEQ and JNE (41_alu.md R82, 40_halt_load_print.md R72, 43_control_transfer.md R102 to R104): no register
and no cell changes; only CMP changes flags; only PRN changes the output stream, which keeps what it held. -/
def Obligations.FrameOfCmpPrnAndJumps : Prop :=
  ∀ (a b : Byte) (s t : State) (i : Instr),
    i ∈ [Instr.cmp a b, Instr.prn a, Instr.jmp a, Instr.jeq a, Instr.jne a] → exec i s = .next t →
    (∀ r, t.reg r = s.reg r) ∧ (∀ c, t.mem.read c = s.mem.read c) ∧ (i ≠ .cmp a b → t.flags = s.flags) ∧
    (i ≠ .prn a → t.out = s.out) ∧ s.out <+: t.out ∧ (s.sameRecord t ∨ ∃ cause info, s.raisedFrom t cause info)

/-- PUSH and CALL (42_stack.md R90, 43_control_transfer.md R100): only `x[7]` changes among the registers, and only the
cell at `x[7] - 1` in memory; where `x[7]` is 0 nothing is stored. -/
def Obligations.FrameOfPushAndCall : Prop :=
  ∀ (a : Byte) (s t : State) (i : Instr), i ∈ [Instr.push a, Instr.call a] → exec i s = .next t →
    (∀ r, r ≠ spReg → t.reg r = s.reg r) ∧ t.flags = s.flags ∧ t.out = s.out ∧
    (∀ c, c + 1 ≠ s.sp.toNat → t.mem.read c = s.mem.read c) ∧
    (s.sameRecord t ∨ ∃ cause info, s.raisedFrom t cause info)

/-- POP and RET (42_stack.md R91, 43_control_transfer.md R101): among the registers only `x[7]` changes, and for POP also
`x[a]`; no cell changes. -/
def Obligations.FrameOfPopAndRet : Prop :=
  ∀ (a : Byte) (s t : State) (i : Instr), i ∈ [Instr.pop a, Instr.ret] → exec i s = .next t →
    (∀ r : Reg, r ≠ spReg → (i = .pop a → r.val ≠ a.toNat) → t.reg r = s.reg r) ∧ t.flags = s.flags ∧
    t.out = s.out ∧ (∀ c, t.mem.read c = s.mem.read c) ∧
    (s.sameRecord t ∨ ∃ cause info, s.raisedFrom t cause info)

/-! ### The step -/

/-- 30_encoding.md R57: when a RUNNING machine's memory holds an instruction's bytes at `pc`, the step is the handler at
that state, and the step adds nothing after it. The instruction may have register operands above 7. -/
def Obligations.StepRunsTheInstructionInMemory : Prop :=
  ∀ (i : Instr) (s : State), s.run = .running → s.pc.toNat + i.length ≤ 256 →
    (∀ (k : Nat) (b : Byte), (encode i)[k]? = some b → s.mem.read (s.pc.toNat + k) = b) → step s = exec i s

/-- 10_state.md R17, 60_exceptions.md R125: the state of a HALTED machine does not change. That the model's step of a HALTED
machine answers the same state is the model's choice (log 5). -/
def Obligations.HaltedMachineKeepsItsState : Prop :=
  ∀ s : State, s.run = .halted → step s = .next s

/-- Every instruction with any operand bytes, and every step from any state, answers a next state. No rule of the spec says
this of HALTED states or of faults; there it is the model's. The spec gives a HALTED machine no step at all (10_state.md R17,
30_encoding.md R57): that the model's step answers an idle step is log 5 (DESIGN CHOICE). 60_exceptions.md R116 says what a
raise does to the state: that the outcome is then a next state is log 6 (DEDUCED). For the rest, R57 gives a RUNNING machine a
step and R121 forbids no instruction. -/
def Obligations.EveryInstructionAndStepAnswersNext : Prop :=
  (∀ (i : Instr) (s : State), ∃ t, exec i s = .next t) ∧ ∀ s : State, ∃ t, step s = .next t

/-- 10_state.md R22, 60_exceptions.md R118: a step of a RUNNING machine that ends the run is either the HLT at `pc`, which
leaves the fault record, or a raise, which writes it; either way `pc` still names the instruction. A step that does not end
the run leaves the fault record (10_state.md R18). `pc` after HLT is the spec's decision D12, after an advance past the top
D8; the record is D5. -/
def Obligations.RunEndsByHltOrByARaiseAtTheInstruction : Prop :=
  ∀ s t : State, s.run = .running → s.faultCause = .none → step s = .next t →
    (t.run = .halted → t.pc = s.pc ∧
      ((s.mem.read s.pc.toNat = 0x01#8 ∧ t.faultCause = .none ∧ t.faultInfo = s.faultInfo) ∨
        t.faultCause ∈ [FaultCause.illegalInstruction, .outOfBounds, .invalidRegister])) ∧
    (t.run = .running → t.faultCause = .none ∧ t.faultInfo = s.faultInfo)

/-- 10_state.md R16: only CMP writes the flags. -/
def Obligations.OnlyCmpChangesFlags : Prop :=
  ∀ s t : State, step s = .next t → t.flags ≠ s.flags → s.run = .running ∧ s.mem.read s.pc.toNat = 0xA7#8

/-- 20_memory.md R31, R37: only PUSH and CALL store, and only to the cell at `x[7] - 1`. -/
def Obligations.OnlyPushAndCallStoreAndOnlyOneCell : Prop :=
  ∀ (s t : State) (c : Nat), step s = .next t → t.mem.read c ≠ s.mem.read c →
    s.run = .running ∧ (s.mem.read s.pc.toNat = 0x45#8 ∨ s.mem.read s.pc.toNat = 0x50#8) ∧ c + 1 = s.sp.toNat

/-- 10_state.md R19: only PRN appends to the output stream, one value, that of the register its operand byte names; nothing
is ever removed (the stream is the spec's decision D15). -/
def Obligations.OnlyPrnAppendsToTheOutput : Prop :=
  ∀ s t : State, step s = .next t →
    t.out = s.out ∨
      (s.run = .running ∧ s.mem.read s.pc.toNat = 0x47#8 ∧
        ∃ r : Reg, (s.mem.read (s.pc.toNat + 1)).toNat = r.val ∧ t.out = s.out ++ [s.reg r])

/-- 10_state.md R11 as a bound from above: an instruction writes at most the registers of the table's last column and reads at
most those of its middle one. A register outside the written ones is unchanged, and changing one outside the read ones changes
nothing of the outcome but at most that register. That the listed registers are in fact read and written is said by the
statements of each instruction's result. -/
def Obligations.RegisterReadAndWriteSets : Prop :=
  ∀ (i : Instr) (s t : State), exec i s = .next t →
    (∀ r : Reg, r.val ∉ i.writesRegisters → t.reg r = s.reg r) ∧
    (∀ (r : Reg) (v : Byte), r.val ∉ i.readsRegisters s.flags.equal →
      ∃ u, exec i (s.setReg r v) = .next u ∧ (∀ q, q ≠ r → u.reg q = t.reg q) ∧ u.pc = t.pc ∧ u.flags = t.flags ∧
        u.run = t.run ∧ u.faultCause = t.faultCause ∧ u.faultInfo = t.faultInfo ∧ u.out = t.out ∧ u.mem = t.mem)

/-- 20_memory.md R42: the byte that PUSH or CALL stored is the opcode byte of the next fetch when the program counter
reaches its cell. -/
def Obligations.StoredByteIsWhatTheNextFetchReads : Prop :=
  ∀ (a : Byte) (r : Reg) (s t : State), a.toNat = r.val → s.run = .running → s.mem.wf → t.run = .running →
    t.pc = t.sp →
    (exec (.push a) s = .next t → t.fetchBytes.head? = some (t.reg r)) ∧
    (exec (.call a) s = .next t → t.fetchBytes.head? = some (s.pc + 2#8))

/-! ### Invariants, reset and the boundary -/

/-- 10_state.md R22: from every state that meets the invariant, a step gives a state that meets it: memory in canonical
form, at most one flag set, a fault record that R111's table allows and that agrees with the memory at `pc`, no cause while
RUNNING, an HLT at `pc` when HALTED without a cause. R22 is the spec's own derivation, the record its
decision D5, the canonical form the model's (log 4). -/
def Obligations.StepKeepsTheInvariant : Prop :=
  ∀ s t : State, s.Inv → step s = .next t → t.Inv

/-- 10_state.md R22: once exactly one flag is 1, which a completed CMP makes true (`CmpSetsExactlyOneFlag`), every step
keeps it so. -/
def Obligations.StepKeepsExactlyOneFlagSet : Prop :=
  ∀ s t : State, s.oneFlagSet → step s = .next t → t.oneFlagSet

/-- 10_state.md R22: every state that any number of steps reaches from reset with any image meets the invariant. The number
counts the model's idle steps after the end of a run too (log 5), and the invariant holds the canonical form (log 4). -/
def Obligations.EveryRunFromEveryImageMeetsTheInvariant : Prop :=
  ∀ (image : List Byte) (s t : State) (k : Nat), State.boot image = some s → core.run k s = .next t → t.Inv

/-- The invariant holds right after reset. -/
def Obligations.ResetMeetsTheInvariant : Prop := State.reset.Inv

/-- 70_reset_and_hazards.md R130, R131, R132: reset with an image of at most 256 bytes leaves every piece of state as the
table says, cell `i` holding byte `i` of the image and 0x00 above it, and meets the invariant; a longer image is outside the
model. The values of R0..R6, `pc` and the flags are the spec's decisions D1, D2, D3, those of the record and the output
stream D5 and D15, the bound D21. -/
def Obligations.BootLeavesTheResetStateWithTheImage : Prop :=
  ∀ image : List Byte,
    (image.length ≤ 256 → ∃ s, State.boot image = some s ∧ s.sp = 0xF4#8 ∧ (∀ r, r ≠ spReg → s.reg r = 0x00#8) ∧
      s.pc = 0x00#8 ∧ s.flags.equal = false ∧ s.flags.less = false ∧ s.flags.greater = false ∧ s.run = .running ∧
      s.faultCause = .none ∧ s.faultInfo = 0 ∧ s.out = [] ∧ (∀ i, s.mem.read i = image.getD i 0x00#8) ∧ s.Inv) ∧
    (256 < image.length → State.boot image = none)

/-- 10_state.md R23, 60_exceptions.md R111: the output signals. The emitted value of a step is the one on
`out_valid`, `out_data`; the nine bits of `fault_info` tell -1 and 256 from every byte; `fault_cause` has R111's numbers.
The signals are the spec's decision D17, the numbers its decision D5. -/
def Obligations.PortsReportTheStateAndTheEmittedValue : Prop :=
  ∀ s : State, s.Inv →
    (∀ t, step s = .next t → t.out = s.out ++ s.outPort.toList) ∧
    (s.haltedPort = true ↔ s.run = .halted) ∧
    (s.faultInfoPort = 0x1FF#9 ↔ s.faultInfo = -1) ∧ (s.faultInfoPort = 0x100#9 ↔ s.faultInfo = 256) ∧
    (0 ≤ s.faultInfo → (s.faultInfoPort.toNat : Int) = s.faultInfo) ∧
    (s.faultCausePort = 0#3 ↔ s.faultCause = .none) ∧
    (s.faultCausePort = 3#3 ↔ s.faultCause = .illegalInstruction) ∧
    (s.faultCausePort = 4#3 ↔ s.faultCause = .outOfBounds) ∧
    (s.faultCausePort = 5#3 ↔ s.faultCause = .invalidRegister) ∧
    s.pcPort = s.pc

/-! ### Laws over more than one step -/

/-- 10_state.md R16, R18, R19: L, G, the output stream and the fault record are never read. Two machines that agree on
everything else step to machines that agree on everything else, emit the same values, and raise the same faults. -/
def Obligations.UnreadStateNeverInfluencesAStep : Prop :=
  ∀ s t s' : State, s.mem.wf → t.mem.wf → s.agreesOnReadable t → step s = .next s' →
    ∃ t', step t = .next t' ∧ s'.agreesOnReadable t' ∧
      (∃ emitted, s'.out = s.out ++ emitted ∧ t'.out = t.out ++ emitted) ∧
      ((s'.faultCause = s.faultCause ∧ s'.faultInfo = s.faultInfo ∧ t'.faultCause = t.faultCause ∧
          t'.faultInfo = t.faultInfo) ∨
        (s'.faultCause = t'.faultCause ∧ s'.faultInfo = t'.faultInfo))

/-- 42_stack.md R93, the push-pop law: PUSH a and then POP a, where neither faults and the stored cell is none of the POP's
bytes, leave every register as it was; memory differs at most in cell (old `x[7]`) - 1, which holds the pushed value. It
holds for `a` = 7 too. -/
def Obligations.PushThenPopRestoresTheRegisters : Prop :=
  ∀ (a : Byte) (r : Reg) (s : State), a.toNat = r.val → s.run = .running → s.mem.wf → s.pc.toNat + 4 ≤ 255 →
    1 ≤ s.sp.toNat → s.sp.toNat ≠ s.pc.toNat + 3 → s.sp.toNat ≠ s.pc.toNat + 4 →
    s.mem.read s.pc.toNat = 0x45#8 → s.mem.read (s.pc.toNat + 1) = a →
    s.mem.read (s.pc.toNat + 2) = 0x46#8 → s.mem.read (s.pc.toNat + 3) = a →
    ∃ t u, step s = .next t ∧ step t = .next u ∧ u.run = .running ∧ u.pc.toNat = s.pc.toNat + 4 ∧
      (∀ q, u.reg q = s.reg q) ∧ u.mem.read (s.sp.toNat - 1) = t.reg r ∧ (r ≠ spReg → t.reg r = s.reg r) ∧
      ∀ c, c + 1 ≠ s.sp.toNat → u.mem.read c = s.mem.read c

/-- 43_control_transfer.md R106, the call-return law: after a CALL that completes at address c, any RET that finds the
stack pointer as the CALL left it and the return-address cell as the CALL wrote it goes to c + 2 and gives `x[7]` the value
it had before the CALL. `u` is the state at that RET, however many instructions later. -/
def Obligations.CallThenReturnGoesToTheNextInstruction : Prop :=
  ∀ (a : Byte) (r : Reg) (s u : State), a.toNat = r.val → s.run = .running → s.mem.wf → s.pc.toNat ≤ 253 →
    1 ≤ s.sp.toNat → s.mem.read s.pc.toNat = 0x50#8 → s.mem.read (s.pc.toNat + 1) = a →
    ∃ t, step s = .next t ∧ t.run = .running ∧
      (u.run = .running → u.mem.read u.pc.toNat = 0x11#8 → u.sp = t.sp →
        u.mem.read t.sp.toNat = t.mem.read t.sp.toNat →
        ∃ v, step u = .next v ∧ v.pc.toNat = s.pc.toNat + 2 ∧ v.sp = s.sp)
end

