-- ==== Sys2Proof/Laws/Decode.lean ====
section
/-! SUPPORT. What the dispatch table and the decoder can answer. -/

namespace Sys2Proof

/-- Which bytes have an entry, and which entry: the 13 rows. -/
theorem dispatch_cases {op : Byte} {h : Handler} (hd : dispatch op = some h) :
    (op = 0x01#8 ∧ h = .z .hlt) ∨ (op = 0x82#8 ∧ h = .ri .ldi) ∨ (op = 0x47#8 ∧ h = .r .prn) ∨
      (op = 0xA2#8 ∧ h = .rr .mul) ∨ (op = 0xA0#8 ∧ h = .rr .add) ∨ (op = 0x45#8 ∧ h = .r .push) ∨
      (op = 0x46#8 ∧ h = .r .pop) ∨ (op = 0x50#8 ∧ h = .r .call) ∨ (op = 0x11#8 ∧ h = .z .ret) ∨
      (op = 0xA7#8 ∧ h = .rr .cmp) ∨ (op = 0x54#8 ∧ h = .r .jmp) ∨ (op = 0x55#8 ∧ h = .r .jeq) ∨
      (op = 0x56#8 ∧ h = .r .jne) := by
  simp only [dispatch, Option.map_eq_some_iff] at hd
  obtain ⟨row, hfind, rfl⟩ := hd
  have hop : row.1 = op := by simpa using List.find?_some hfind
  have hmem := List.mem_of_find?_eq_some hfind
  subst hop
  simp only [dispatchTable, List.mem_cons, List.not_mem_nil, or_false] at hmem
  rcases hmem with rfl | rfl | rfl | rfl | rfl | rfl | rfl | rfl | rfl | rfl | rfl | rfl | rfl <;> simp

/-- The opcode of an instruction is dispatched, whatever follows it. -/
theorem decode_append (i : Instr) (rest : List Byte) : decode (i.opcode :: (i.operandBytes ++ rest)) = .ok (i, rest) := by
  cases i <;> rfl

/-- An opcode without an entry is rejected whatever follows it. -/
theorem decode_illegal {op : Byte} (h : dispatch op = none) (rest : List Byte) :
    decode (op :: rest) = .error (.illegalInstruction op) := by
  simp only [decode, h]

end Sys2Proof
end

