-- ==== Sys2Proof/Laws/Memory.lean ====
section
/-! SUPPORT. Reading after writing, and the canonical form under every memory operation. -/

namespace Sys2Proof.Machine

@[simp] theorem Memory.read_nil (a : Nat) : Memory.read [] a = Config.initialCell := rfl

/-- An address below every listed one is not listed. -/
theorem Memory.read_of_lt (m : Memory) (a : Nat) (h : ∀ c ∈ m, a < c.1) : m.read a = Config.initialCell := by
  induction m with
  | nil => rfl
  | cons c m ih =>
    have hc := h c (by simp)
    simp only [Memory.read, if_neg (Nat.ne_of_gt hc)]
    exact ih fun d hd => h d (by simp [hd])

/-- A write leaves every other cell alone. -/
@[simp] theorem Memory.read_write_other (m : Memory) (a b : Nat) (v : Byte) (h : b ≠ a) :
    (m.write a v).read b = m.read b := by
  have h' : ¬a = b := fun e => h e.symm
  induction m with
  | nil =>
    simp only [Memory.write]
    split <;> simp [Memory.read, h']
  | cons c m ih =>
    simp only [Memory.write]
    split
    · simp only [Memory.read, ih]
    · split
      · next hc => split <;> simp [Memory.read, h', hc]
      · split <;> simp [Memory.read, h']

/-- A read of the cell just written gives the value written. -/
theorem Memory.read_write_same (m : Memory) (a : Nat) (v : Byte) (hm : m.Pairwise (fun c d => c.1 < d.1)) :
    (m.write a v).read a = v := by
  induction m with
  | nil =>
    simp only [Memory.write]
    split <;> simp_all [Memory.read]
  | cons c m ih =>
    obtain ⟨hc, hm⟩ := List.pairwise_cons.mp hm
    simp only [Memory.write]
    split
    · next hlt => simp only [Memory.read, if_neg (Nat.ne_of_lt hlt), ih hm]
    · split
      · next hca =>
        split
        · next hv => rw [hv]; exact Memory.read_of_lt m a fun d hd => hca ▸ hc d hd
        · simp [Memory.read]
      · next hge hne =>
        split
        · next hv =>
          rw [hv]
          refine Memory.read_of_lt _ a fun d hd => ?_
          rcases List.mem_cons.mp hd with rfl | hd
          · omega
          · have := hc d hd; omega
        · simp [Memory.read]

/-- Every cell a write lists was listed before or is the written one, which then holds another value than
`Config.initialCell`. -/
theorem Memory.mem_write (m : Memory) (a : Nat) (v : Byte) (c : Host.Cell) (h : c ∈ m.write a v) :
    c ∈ m ∨ (c = (a, v) ∧ v ≠ Config.initialCell) := by
  induction m with
  | nil =>
    simp only [Memory.write] at h
    split at h <;> simp_all
  | cons d m ih =>
    simp only [Memory.write] at h
    split at h
    · rcases List.mem_cons.mp h with rfl | h
      · simp
      · rcases ih h with h | h <;> simp [h]
    · split at h
      · split at h <;> simp_all
        rcases h with h | h <;> simp [h]
      · split at h <;> simp_all
        rcases h with h | h | h <;> simp [h]

/-- A write to a cell of the machine keeps the canonical form. -/
theorem Memory.wf_write (m : Memory) (a : Nat) (v : Byte) (hm : m.wf) (ha : a < Config.memorySize) :
    (m.write a v).wf := by
  refine ⟨fun c hc => ?_, ?_⟩
  · rcases Memory.mem_write m a v c hc with h | ⟨rfl, hv⟩
    · exact hm.1 c h
    · exact ⟨ha, hv⟩
  · have hp := hm.2
    clear hm
    induction m with
    | nil =>
      simp only [Memory.write]
      split <;> simp
    | cons c m ih =>
      obtain ⟨hc, hp'⟩ := List.pairwise_cons.mp hp
      simp only [Memory.write]
      split
      · next hlt =>
        refine List.pairwise_cons.mpr ⟨fun d hd => ?_, ih hp'⟩
        rcases Memory.mem_write m a v d hd with h | ⟨rfl, -⟩
        · exact hc d h
        · exact hlt
      · split
        · next hca =>
          split
          · exact hp'
          · exact List.pairwise_cons.mpr ⟨fun d hd => hca ▸ hc d hd, hp'⟩
        · next hge hne =>
          split
          · exact hp
          · refine List.pairwise_cons.mpr ⟨fun d hd => ?_, hp⟩
            have hac : a < c.1 := by omega
            rcases List.mem_cons.mp hd with rfl | hd
            · exact hac
            · exact Nat.lt_trans hac (hc d hd)

/-- Storing bytes keeps the canonical form. -/
theorem Memory.wf_writeBytes (m : Memory) (a : Nat) (bs : List Byte) (hm : m.wf) : (m.writeBytes a bs).wf := by
  induction bs generalizing m a with
  | nil => exact hm
  | cons b bs ih =>
    simp only [Memory.writeBytes]
    split
    · next h => exact ih _ _ (Memory.wf_write m a b hm h)
    · exact hm

/-- Reset memory is in canonical form. -/
theorem State.reset_mem_wf : State.reset.mem.wf := by decide

end Sys2Proof.Machine
end

