-- ==== Sys2Proof/Laws/State.lean ====
section
/-! SUPPORT. What each named update does to each field of `State`, so that no proof unfolds a record update. -/

namespace Sys2Proof.Machine

/-- A register's number is one of 0..7, as `omega` wants it. -/
theorem Reg.val_lt (r : Reg) : r.val < 8 := r.isLt

theorem State.reg_setReg (s : State) (r q : Reg) (v : Byte) :
    (s.setReg r v).reg q = if r = q then v else s.reg q := by
  simp only [State.reg, State.setReg, Fin.getElem_fin, Vector.getElem_set, Fin.ext_iff]

@[simp] theorem State.reg_setReg_same (s : State) (r : Reg) (v : Byte) : (s.setReg r v).reg r = v := by
  simp [State.reg_setReg]

@[simp] theorem State.reg_setReg_other (s : State) (r q : Reg) (v : Byte) (h : q ≠ r) :
    (s.setReg r v).reg q = s.reg q := by
  simp [State.reg_setReg, h.symm]

@[simp] theorem State.sp_setReg_same (s : State) (v : Byte) : (s.setReg spReg v).sp = v :=
  State.reg_setReg_same s spReg v

@[simp] theorem State.sp_setReg_other (s : State) (r : Reg) (v : Byte) (h : r ≠ spReg) : (s.setReg r v).sp = s.sp :=
  State.reg_setReg_other s r spReg v h.symm

@[simp] theorem State.setReg_pc (s : State) (r : Reg) (v : Byte) : (s.setReg r v).pc = s.pc := rfl
@[simp] theorem State.setReg_flags (s : State) (r : Reg) (v : Byte) : (s.setReg r v).flags = s.flags := rfl
@[simp] theorem State.setReg_run (s : State) (r : Reg) (v : Byte) : (s.setReg r v).run = s.run := rfl
@[simp] theorem State.setReg_faultCause (s : State) (r : Reg) (v : Byte) :
    (s.setReg r v).faultCause = s.faultCause := rfl
@[simp] theorem State.setReg_faultInfo (s : State) (r : Reg) (v : Byte) : (s.setReg r v).faultInfo = s.faultInfo := rfl
@[simp] theorem State.setReg_out (s : State) (r : Reg) (v : Byte) : (s.setReg r v).out = s.out := rfl
@[simp] theorem State.setReg_mem (s : State) (r : Reg) (v : Byte) : (s.setReg r v).mem = s.mem := rfl

@[simp] theorem State.setPc_reg (s : State) (p : Byte) (r : Reg) : (s.setPc p).reg r = s.reg r := rfl
@[simp] theorem State.setPc_sp (s : State) (p : Byte) : (s.setPc p).sp = s.sp := rfl
@[simp] theorem State.setPc_pc (s : State) (p : Byte) : (s.setPc p).pc = p := rfl
@[simp] theorem State.setPc_flags (s : State) (p : Byte) : (s.setPc p).flags = s.flags := rfl
@[simp] theorem State.setPc_run (s : State) (p : Byte) : (s.setPc p).run = s.run := rfl
@[simp] theorem State.setPc_faultCause (s : State) (p : Byte) : (s.setPc p).faultCause = s.faultCause := rfl
@[simp] theorem State.setPc_faultInfo (s : State) (p : Byte) : (s.setPc p).faultInfo = s.faultInfo := rfl
@[simp] theorem State.setPc_out (s : State) (p : Byte) : (s.setPc p).out = s.out := rfl
@[simp] theorem State.setPc_mem (s : State) (p : Byte) : (s.setPc p).mem = s.mem := rfl

@[simp] theorem State.setFlags_reg (s : State) (f : Flags) (r : Reg) : (s.setFlags f).reg r = s.reg r := rfl
@[simp] theorem State.setFlags_sp (s : State) (f : Flags) : (s.setFlags f).sp = s.sp := rfl
@[simp] theorem State.setFlags_pc (s : State) (f : Flags) : (s.setFlags f).pc = s.pc := rfl
@[simp] theorem State.setFlags_flags (s : State) (f : Flags) : (s.setFlags f).flags = f := rfl
@[simp] theorem State.setFlags_run (s : State) (f : Flags) : (s.setFlags f).run = s.run := rfl
@[simp] theorem State.setFlags_faultCause (s : State) (f : Flags) : (s.setFlags f).faultCause = s.faultCause := rfl
@[simp] theorem State.setFlags_faultInfo (s : State) (f : Flags) : (s.setFlags f).faultInfo = s.faultInfo := rfl
@[simp] theorem State.setFlags_out (s : State) (f : Flags) : (s.setFlags f).out = s.out := rfl
@[simp] theorem State.setFlags_mem (s : State) (f : Flags) : (s.setFlags f).mem = s.mem := rfl

@[simp] theorem State.output_reg (s : State) (v : Byte) (r : Reg) : (s.output v).reg r = s.reg r := rfl
@[simp] theorem State.output_sp (s : State) (v : Byte) : (s.output v).sp = s.sp := rfl
@[simp] theorem State.output_pc (s : State) (v : Byte) : (s.output v).pc = s.pc := rfl
@[simp] theorem State.output_flags (s : State) (v : Byte) : (s.output v).flags = s.flags := rfl
@[simp] theorem State.output_run (s : State) (v : Byte) : (s.output v).run = s.run := rfl
@[simp] theorem State.output_faultCause (s : State) (v : Byte) : (s.output v).faultCause = s.faultCause := rfl
@[simp] theorem State.output_faultInfo (s : State) (v : Byte) : (s.output v).faultInfo = s.faultInfo := rfl
@[simp] theorem State.output_out (s : State) (v : Byte) : (s.output v).out = s.out ++ [v] := rfl
@[simp] theorem State.output_mem (s : State) (v : Byte) : (s.output v).mem = s.mem := rfl

@[simp] theorem State.raise_reg (s : State) (c : FaultCause) (n : Int) (r : Reg) :
    (s.raise c n).reg r = s.reg r := rfl
@[simp] theorem State.raise_sp (s : State) (c : FaultCause) (n : Int) : (s.raise c n).sp = s.sp := rfl
@[simp] theorem State.raise_pc (s : State) (c : FaultCause) (n : Int) : (s.raise c n).pc = s.pc := rfl
@[simp] theorem State.raise_flags (s : State) (c : FaultCause) (n : Int) : (s.raise c n).flags = s.flags := rfl
@[simp] theorem State.raise_run (s : State) (c : FaultCause) (n : Int) : (s.raise c n).run = .halted := rfl
@[simp] theorem State.raise_faultCause (s : State) (c : FaultCause) (n : Int) : (s.raise c n).faultCause = c := rfl
@[simp] theorem State.raise_faultInfo (s : State) (c : FaultCause) (n : Int) : (s.raise c n).faultInfo = n := rfl
@[simp] theorem State.raise_out (s : State) (c : FaultCause) (n : Int) : (s.raise c n).out = s.out := rfl
@[simp] theorem State.raise_mem (s : State) (c : FaultCause) (n : Int) : (s.raise c n).mem = s.mem := rfl

@[simp] theorem State.setCell_reg (s : State) (a : Nat) (v : Byte) (r : Reg) : (s.setCell a v).reg r = s.reg r := rfl
@[simp] theorem State.setCell_sp (s : State) (a : Nat) (v : Byte) : (s.setCell a v).sp = s.sp := rfl
@[simp] theorem State.setCell_pc (s : State) (a : Nat) (v : Byte) : (s.setCell a v).pc = s.pc := rfl
@[simp] theorem State.setCell_flags (s : State) (a : Nat) (v : Byte) : (s.setCell a v).flags = s.flags := rfl
@[simp] theorem State.setCell_run (s : State) (a : Nat) (v : Byte) : (s.setCell a v).run = s.run := rfl
@[simp] theorem State.setCell_faultCause (s : State) (a : Nat) (v : Byte) : (s.setCell a v).faultCause = s.faultCause := rfl
@[simp] theorem State.setCell_faultInfo (s : State) (a : Nat) (v : Byte) : (s.setCell a v).faultInfo = s.faultInfo := rfl
@[simp] theorem State.setCell_out (s : State) (a : Nat) (v : Byte) : (s.setCell a v).out = s.out := rfl
@[simp] theorem State.setCell_mem (s : State) (a : Nat) (v : Byte) : (s.setCell a v).mem = s.mem.write a v := rfl

@[simp] theorem State.halt_reg (s : State) (r : Reg) : (s.halt).reg r = s.reg r := rfl
@[simp] theorem State.halt_sp (s : State) : (s.halt).sp = s.sp := rfl
@[simp] theorem State.halt_pc (s : State) : (s.halt).pc = s.pc := rfl
@[simp] theorem State.halt_flags (s : State) : (s.halt).flags = s.flags := rfl
@[simp] theorem State.halt_run (s : State) : (s.halt).run = .halted := rfl
@[simp] theorem State.halt_faultCause (s : State) : (s.halt).faultCause = s.faultCause := rfl
@[simp] theorem State.halt_faultInfo (s : State) : (s.halt).faultInfo = s.faultInfo := rfl
@[simp] theorem State.halt_out (s : State) : (s.halt).out = s.out := rfl
@[simp] theorem State.halt_mem (s : State) : (s.halt).mem = s.mem := rfl

end Sys2Proof.Machine
end

