-- ==== Sys2Proof/Laws/Ops.lean ====
section
/-! SUPPORT. What each shared operation does, once: provers cite these instead of unfolding the operations. -/

namespace Sys2Proof.Machine

/-! ### The range check -/

theorem inRange_of_le {n : Nat} (h : n ≤ 255) (s : State) (k : Byte → Result) :
    inRange (n : Int) s k = k (BitVec.ofNat 8 n) := by
  simp only [inRange, BitVec.ofInt_natCast]
  rw [if_pos ⟨by omega, by omega⟩]

theorem inRange_of_byte (b : Byte) (s : State) (k : Byte → Result) : inRange (b.toNat : Int) s k = k b := by
  rw [inRange_of_le (by omega), BitVec.ofNat_toNat, BitVec.setWidth_eq]

theorem inRange_of_not {n : Int} (h : n < 0 ∨ 255 < n) (s : State) (k : Byte → Result) :
    inRange n s k = .next (s.raise .outOfBounds n) := by
  rw [inRange, if_neg (by omega)]

/-! ### Memory primitives -/

theorem memRead_of_byte (b : Byte) (s : State) (k : Byte → Result) :
    memRead (b.toNat : Int) s k = k (s.mem.read b.toNat) := inRange_of_byte b s _

theorem memWrite_of_byte (b v : Byte) (s : State) (k : State → Result) :
    memWrite (b.toNat : Int) v s k = k (s.setCell b.toNat v) := inRange_of_byte b s _

/-! ### Register operands -/

theorem register?_of_eq {a : Byte} {r : Reg} (h : a.toNat = r.val) : register? a = some r := by
  have hlt : a.toNat < Config.registerCount := h ▸ r.isLt
  rw [register?, dif_pos hlt]
  exact congrArg some (Fin.ext h)

theorem register?_eq_none {a : Byte} : register? a = none ↔ 8 ≤ a.toNat := by
  unfold register?
  split <;> simp_all [Config.registerCount]

theorem withReg_of_eq {a : Byte} {r : Reg} (h : a.toNat = r.val) (s : State) (k : Reg → Result) :
    withReg a s k = k r := by
  simp only [withReg, register?_of_eq h]

theorem withReg_of_ge {a : Byte} (h : 8 ≤ a.toNat) (s : State) (k : Reg → Result) :
    withReg a s k = .next (s.raise .invalidRegister a.toNat) := by
  simp only [withReg, register?_eq_none.mpr h]

/-- An operand byte names a register or is one of the bytes that raise. -/
theorem register_cases (a : Byte) : (∃ r : Reg, a.toNat = r.val) ∨ 8 ≤ a.toNat := by
  by_cases h : a.toNat < 8
  · exact .inl ⟨⟨a.toNat, h⟩, rfl⟩
  · exact .inr (by omega)

/-- What the operand check can do. -/
theorem withReg_cases {a : Byte} {s t : State} {k : Reg → Result} (h : withReg a s k = .next t) :
    (∃ r : Reg, a.toNat = r.val ∧ k r = .next t) ∨ (8 ≤ a.toNat ∧ t = s.raise .invalidRegister a.toNat) := by
  rcases register_cases a with ⟨r, hr⟩ | ha
  · rw [withReg_of_eq hr] at h
    exact .inl ⟨r, hr, h⟩
  · rw [withReg_of_ge ha] at h
    exact .inr ⟨ha, by injection h with h; exact h.symm⟩

/-! ### Program counter and stack pointer -/

theorem advance_of_le {w : Nat} {s : State} (h : s.pc.toNat + w ≤ 255) :
    advance w s = .next (s.setPc (BitVec.ofNat 8 (s.pc.toNat + w))) :=
  inRange_of_le h s _

theorem advance_of_gt {w : Nat} {s : State} (h : 255 < s.pc.toNat + w) :
    advance w s = .next (s.raise .outOfBounds (s.pc.toNat + w)) :=
  inRange_of_not (by omega) s _

/-- What `Advance` can do. -/
theorem advance_cases {w : Nat} {s t : State} (h : advance w s = .next t) :
    (∃ p : Byte, p.toNat = s.pc.toNat + w ∧ t = s.setPc p) ∨
      (255 < s.pc.toNat + w ∧ t = s.raise .outOfBounds (s.pc.toNat + w)) := by
  by_cases hw : s.pc.toNat + w ≤ 255
  · rw [advance_of_le hw] at h
    refine .inl ⟨BitVec.ofNat 8 (s.pc.toNat + w), ?_, by injection h with h; exact h.symm⟩
    simp only [BitVec.toNat_ofNat]; omega
  · rw [advance_of_gt (by omega)] at h
    exact .inr ⟨by omega, by injection h with h; exact h.symm⟩

theorem decrementSp_of_pos {s : State} (h : 1 ≤ s.sp.toNat) (k : Byte → Result) :
    decrementSp s k = k (BitVec.ofNat 8 (s.sp.toNat - 1)) := by
  have : ((s.sp.toNat : Int) - 1) = ((s.sp.toNat - 1 : Nat) : Int) := by omega
  rw [decrementSp, this, inRange_of_le (by omega)]

theorem decrementSp_of_zero {s : State} (h : s.sp.toNat = 0) (k : Byte → Result) :
    decrementSp s k = .next (s.raise .outOfBounds (-1)) := by
  rw [decrementSp, inRange_of_not (by omega), h]; rfl

/-- What the decrement can do. -/
theorem decrementSp_cases {s t : State} {k : Byte → Result} (h : decrementSp s k = .next t) :
    (∃ p : Byte, p.toNat + 1 = s.sp.toNat ∧ k p = .next t) ∨
      (s.sp.toNat = 0 ∧ t = s.raise .outOfBounds (-1)) := by
  by_cases hs : s.sp.toNat = 0
  · rw [decrementSp_of_zero hs] at h
    exact .inr ⟨hs, by injection h with h; exact h.symm⟩
  · rw [decrementSp_of_pos (by omega)] at h
    exact .inl ⟨_, by simp only [BitVec.toNat_ofNat]; omega, h⟩

theorem incrementSp_of_lt {s : State} (h : s.sp.toNat ≤ 254) (k : Byte → Result) :
    incrementSp s k = k (BitVec.ofNat 8 (s.sp.toNat + 1)) :=
  inRange_of_le (n := s.sp.toNat + 1) (by omega) s _

theorem incrementSp_of_top {s : State} (h : s.sp.toNat = 255) (k : Byte → Result) :
    incrementSp s k = .next (s.raise .outOfBounds 256) := by
  rw [incrementSp, inRange_of_not (by omega), h]; rfl

/-- What the increment can do. -/
theorem incrementSp_cases {s t : State} {k : Byte → Result} (h : incrementSp s k = .next t) :
    (∃ p : Byte, p.toNat = s.sp.toNat + 1 ∧ k p = .next t) ∨
      (s.sp.toNat = 255 ∧ t = s.raise .outOfBounds 256) := by
  by_cases hs : s.sp.toNat = 255
  · rw [incrementSp_of_top hs] at h
    exact .inr ⟨hs, by injection h with h; exact h.symm⟩
  · rw [incrementSp_of_lt (by omega)] at h
    exact .inl ⟨_, by simp only [BitVec.toNat_ofNat]; omega, h⟩

theorem returnAddress_of_le {s : State} (h : s.pc.toNat ≤ 253) (k : Byte → Result) :
    returnAddress s k = k (BitVec.ofNat 8 (s.pc.toNat + 2)) :=
  inRange_of_le (n := s.pc.toNat + 2) (by omega) s _

/-- What the return-address check can do. -/
theorem returnAddress_cases {s t : State} {k : Byte → Result} (h : returnAddress s k = .next t) :
    (∃ p : Byte, p.toNat = s.pc.toNat + 2 ∧ k p = .next t) ∨
      (254 ≤ s.pc.toNat ∧ t = s.raise .outOfBounds (s.pc.toNat + 2)) := by
  by_cases hs : s.pc.toNat ≤ 253
  · rw [returnAddress_of_le hs] at h
    exact .inl ⟨_, by simp only [BitVec.toNat_ofNat]; omega, h⟩
  · rw [returnAddress, inRange_of_not (by omega)] at h
    exact .inr ⟨by omega, by injection h with h; exact h.symm⟩

/-! ### ALU -/

theorem aluAdd_eq (u v : Byte) : aluAdd u v = u + v := by
  apply BitVec.eq_of_toNat_eq
  simp [aluAdd, BitVec.toNat_add]

theorem aluMul_eq (u v : Byte) : aluMul u v = u * v := by
  apply BitVec.eq_of_toNat_eq
  simp [aluMul, BitVec.toNat_mul]

/-! ### Fetch -/

theorem Memory.readBytes_zero (m : Memory) (a : Nat) : m.readBytes a 0 = [] := rfl

theorem Memory.readBytes_succ_of_lt {m : Memory} {a n : Nat} (h : a < 256) :
    m.readBytes a (n + 1) = m.read a :: m.readBytes (a + 1) n := if_pos h

theorem Memory.readBytes_of_ge {m : Memory} {a n : Nat} (h : 256 ≤ a) : m.readBytes a n = [] := by
  cases n with
  | zero => rfl
  | succ n => exact if_neg (Nat.not_lt.mpr h)

/-- The byte fetched first is the cell at `pc`. -/
theorem State.fetchBytes_eq (s : State) :
    s.fetchBytes = s.mem.read s.pc.toNat :: s.mem.readBytes (s.pc.toNat + 1) 2 :=
  Memory.readBytes_succ_of_lt (n := 2) s.pc.isLt

/-! ### The step -/

@[simp] theorem step_halted {s : State} (h : s.run = .halted) : step s = .next s := by
  simp only [step, h]

theorem step_of_ok {s : State} {i : Instr} (h : s.run = .running) (hf : s.fetchDecode = .ok i) :
    step s = exec i s := by
  simp only [step, h, hf]

theorem step_of_error {s : State} {cause : FaultCause} {info : Int} (h : s.run = .running)
    (hf : s.fetchDecode = .error (cause, info)) : step s = .next (s.raise cause info) := by
  simp only [step, h, hf]

end Sys2Proof.Machine
end

