-- ==== Sys2Proof/Laws/PerInstr.lean ====
section
/-! SUPPORT. The per-instruction family `Dispatched`: the dispatch table has an entry for the instruction's opcode, and
that entry's operand count gives the instruction's length (30_encoding.md R51, R56). -/

namespace Sys2Proof.Laws.Dispatched

/-- The opcode's entry exists, and the instruction's length is 1 + its operand count. -/
def Statement (i : Instr) : Prop :=
  ∃ h, dispatch i.opcode = some h ∧ i.length = 1 + h.operandCount

theorem hlt : Statement .hlt := ⟨_, rfl, rfl⟩
theorem ldi (a imm8 : Byte) : Statement (.ldi a imm8) := ⟨_, rfl, rfl⟩
theorem prn (a : Byte) : Statement (.prn a) := ⟨_, rfl, rfl⟩
theorem mul (a b : Byte) : Statement (.mul a b) := ⟨_, rfl, rfl⟩
theorem add (a b : Byte) : Statement (.add a b) := ⟨_, rfl, rfl⟩
theorem push (a : Byte) : Statement (.push a) := ⟨_, rfl, rfl⟩
theorem pop (a : Byte) : Statement (.pop a) := ⟨_, rfl, rfl⟩
theorem call (a : Byte) : Statement (.call a) := ⟨_, rfl, rfl⟩
theorem ret : Statement .ret := ⟨_, rfl, rfl⟩
theorem cmp (a b : Byte) : Statement (.cmp a b) := ⟨_, rfl, rfl⟩
theorem jmp (a : Byte) : Statement (.jmp a) := ⟨_, rfl, rfl⟩
theorem jeq (a : Byte) : Statement (.jeq a) := ⟨_, rfl, rfl⟩
theorem jne (a : Byte) : Statement (.jne a) := ⟨_, rfl, rfl⟩

end Sys2Proof.Laws.Dispatched
end

