-- ==== Sys2Proof/Tests/Slice0.lean ====
section
/-! SUPPORT. Small tests, each with its source in spec/95_test_vectors.md (V<n>, W<n>) or spec/30_encoding.md, the smoke
test of WellFormed, and one witness for the hypotheses of each statement that has some. -/

namespace Sys2Proof.Tests

open Sys2Proof Sys2Proof.Machine

/-- The next state, where there is one. -/
def nextOf : Result → Option State
  | .next t => some t
  | .fault _ => none
  | .refused _ => none

/-- The answer is a next state that satisfies `P`, as a closed check. -/
def answers (o : Result) (P : State → Prop) [DecidablePred P] : Bool :=
  match o with
  | .next t => decide (P t)
  | .fault _ => false
  | .refused _ => false

/-- A closed check of an answer gives the state it names. -/
theorem next_with {o : Result} {P : State → Prop} [DecidablePred P] (h : answers o P = true) :
    ∃ t, o = .next t ∧ P t := by
  cases o with
  | next t => exact ⟨t, rfl, of_decide_eq_true h⟩
  | fault r => cases r
  | refused r => cases h

/-- Reset with these bytes at address `pc` and the program counter there. -/
def place (pc : Byte) (bytes : List Byte) : State :=
  { State.reset with pc := pc, mem := Memory.writeBytes [] pc.toNat bytes }

/-! ### WellFormed: an ill-formed term for each check -/

theorem test_wf_refuses_ldi : ¬ (Instr.ldi 8#8 0#8).WellFormed := by decide
theorem test_wf_refuses_prn : ¬ (Instr.prn 8#8).WellFormed := by decide
theorem test_wf_refuses_mul_operand1 : ¬ (Instr.mul 8#8 0#8).WellFormed := by decide
theorem test_wf_refuses_mul_operand2 : ¬ (Instr.mul 0#8 8#8).WellFormed := by decide
theorem test_wf_refuses_add_operand1 : ¬ (Instr.add 255#8 0#8).WellFormed := by decide
theorem test_wf_refuses_add_operand2 : ¬ (Instr.add 0#8 255#8).WellFormed := by decide
theorem test_wf_refuses_cmp_operand1 : ¬ (Instr.cmp 8#8 0#8).WellFormed := by decide
theorem test_wf_refuses_cmp_operand2 : ¬ (Instr.cmp 0#8 8#8).WellFormed := by decide
theorem test_wf_refuses_push : ¬ (Instr.push 8#8).WellFormed := by decide
theorem test_wf_refuses_pop : ¬ (Instr.pop 8#8).WellFormed := by decide
theorem test_wf_refuses_call : ¬ (Instr.call 8#8).WellFormed := by decide
theorem test_wf_refuses_jmp : ¬ (Instr.jmp 8#8).WellFormed := by decide
theorem test_wf_refuses_jeq : ¬ (Instr.jeq 8#8).WellFormed := by decide
theorem test_wf_refuses_jne : ¬ (Instr.jne 8#8).WellFormed := by decide
theorem test_wf_accepts_any_immediate : (Instr.ldi 7#8 255#8).WellFormed := by decide

/-! ### Decode: one word of each constructor, written out bit by bit from 30_encoding.md R54 -/

theorem test_decode_hlt : decode [0b00000001#8] = .ok (.hlt, []) := by rfl
theorem test_decode_ldi : decode [0b10000010#8, 0b00000010#8, 0b11001000#8] = .ok (.ldi 2#8 200#8, []) := by rfl
theorem test_decode_prn : decode [0b01000111#8, 0b00000011#8] = .ok (.prn 3#8, []) := by rfl
theorem test_decode_mul : decode [0b10100010#8, 0b00000001#8, 0b00000010#8] = .ok (.mul 1#8 2#8, []) := by rfl
theorem test_decode_add : decode [0b10100000#8, 0b00000001#8, 0b00000010#8] = .ok (.add 1#8 2#8, []) := by rfl
theorem test_decode_push : decode [0b01000101#8, 0b00000100#8] = .ok (.push 4#8, []) := by rfl
theorem test_decode_pop : decode [0b01000110#8, 0b00000101#8] = .ok (.pop 5#8, []) := by rfl
theorem test_decode_call : decode [0b01010000#8, 0b00000110#8] = .ok (.call 6#8, []) := by rfl
theorem test_decode_ret : decode [0b00010001#8] = .ok (.ret, []) := by rfl
theorem test_decode_cmp : decode [0b10100111#8, 0b00000001#8, 0b00000010#8] = .ok (.cmp 1#8 2#8, []) := by rfl
theorem test_decode_jmp : decode [0b01010100#8, 0b00000111#8] = .ok (.jmp 7#8, []) := by rfl
theorem test_decode_jeq : decode [0b01010101#8, 0b00000001#8] = .ok (.jeq 1#8, []) := by rfl
theorem test_decode_jne : decode [0b01010110#8, 0b00000001#8] = .ok (.jne 1#8, []) := by rfl

/-- W6: the worked image decodes as LDI R0,8; PRN R0; HLT. -/
theorem test_decode_worked_image :
    decode [0x82#8, 0#8, 8#8, 0x47#8, 0#8, 0x01#8] = .ok (.ldi 0#8 8#8, [0x47#8, 0#8, 0x01#8]) := by rfl

/-- V62: 0xA1 is no opcode. -/
theorem test_decode_refuses_subtract : decode [0xA1#8, 0#8, 1#8] = .error (.illegalInstruction 0xA1#8) := by rfl

/-- A three-byte instruction cut after operand 1 lacks byte 2. -/
theorem test_decode_refuses_truncated : decode [0x82#8, 0#8] = .error (.missingByte 2) := by rfl

/-- The table's numbering: the second byte is bits 15..8. -/
theorem test_table_word_order : decodeTableWord 24 0xC80282 = some (.ldi 2#8 200#8) := by decide
theorem test_table_word_short : decodeTableWord 8 0xA7 = some (.cmp 0#8 0#8) := by decide
theorem test_fetch_word_runs :
    (nextOf (step (State.reset.withFetchWord 16 0x0047))).map (·.out) = some [0#8] := by decide

/-! ### One step each (spec/95_test_vectors.md, Part 2) -/

/-- V2 -/
theorem test_hlt_at_the_top : (nextOf (step (place 255#8 [0x01#8]))).map (fun t => (t.run, t.faultCause, t.pc)) =
    some (.halted, .none, 255#8) := by decide
/-- V4 -/
theorem test_ldi_sp : (nextOf (step (place 0#8 [0x82#8, 7#8, 9#8]))).map (fun t => (t.sp, t.pc)) = some (9#8, 3#8) := by
  decide
/-- V7 -/
theorem test_ldi_commits_then_faults : (nextOf (step (place 253#8 [0x82#8, 0#8, 5#8]))).map
    (fun t => (t.reg 0, t.faultCause, t.faultInfo, t.pc)) = some (5#8, .outOfBounds, 256, 253#8) := by decide
/-- V11 -/
theorem test_prn_sp : (nextOf (step (place 0#8 [0x47#8, 7#8]))).map (fun t => (t.out, t.pc)) = some ([244#8], 2#8) := by
  decide
/-- V13 -/
theorem test_prn_emits_then_faults : (nextOf (step ((place 254#8 [0x47#8, 0#8]).setReg 0 42#8))).map
    (fun t => (t.out, t.faultCause, t.faultInfo, t.run)) = some ([42#8], .outOfBounds, 256, .halted) := by decide
/-- V17 -/
theorem test_mul_wraps : (nextOf (step (((place 0#8 [0xA2#8, 0#8, 1#8]).setReg 0 255#8).setReg 1 255#8))).map
    (fun t => (t.reg 0, t.reg 1, t.pc)) = some (1#8, 255#8, 3#8) := by decide
/-- V18 -/
theorem test_mul_squares : (nextOf (step ((place 0#8 [0xA2#8, 2#8, 2#8]).setReg 2 13#8))).map
    (fun t => t.reg 2) = some 169#8 := by decide
/-- V25 -/
theorem test_add_wraps : (nextOf (step (((place 0#8 [0xA0#8, 0#8, 1#8]).setReg 0 200#8).setReg 1 100#8))).map
    (fun t => (t.reg 0, t.reg 1)) = some (44#8, 100#8) := by decide
/-- V31 -/
theorem test_add_reports_operand1 : (nextOf (step (place 0#8 [0xA0#8, 9#8, 0xC8#8]))).map
    (fun t => (t.faultCause, t.faultInfo, t.pc)) = some (.invalidRegister, 9, 0#8) := by decide
/-- V21 -/
theorem test_cmp_unsigned : (nextOf (step ((place 0#8 [0xA7#8, 0#8, 1#8]).setReg 1 255#8))).map
    (fun t => t.flags) = some ⟨false, true, false⟩ := by decide
/-- V33 -/
theorem test_cmp_commits_then_faults : (nextOf (step (((place 253#8 [0xA7#8, 0#8, 1#8]).setReg 0 1#8).setReg 1 2#8))).map
    (fun t => (t.flags.less, t.faultCause, t.pc)) = some (true, .outOfBounds, 253#8) := by decide
/-- V36 -/
theorem test_push_sp : (nextOf (step (place 0#8 [0x45#8, 7#8]))).map
    (fun t => (t.sp, t.mem.read 0xF3, t.pc)) = some (0xF3#8, 0xF3#8, 2#8) := by decide
/-- V37 -/
theorem test_push_at_zero : (nextOf (step ((place 0#8 [0x45#8, 0#8]).setReg 7 0#8))).map
    (fun t => (t.faultCause, t.faultInfo, t.sp, t.pc)) = some (.outOfBounds, -1, 0#8, 0#8) := by decide
/-- V41 -/
theorem test_pop_at_the_top : (nextOf (step (((place 0#8 [0x46#8, 0#8]).setReg 7 255#8).setCell 255 0x77#8))).map
    (fun t => (t.reg 0, t.faultCause, t.faultInfo, t.sp)) = some (0x77#8, .outOfBounds, 256, 255#8) := by decide
/-- V42 -/
theorem test_pop_sp : (nextOf (step (((place 0#8 [0x46#8, 7#8]).setReg 7 0xF3#8).setCell 0xF3 0x20#8))).map
    (fun t => (t.sp, t.pc)) = some (0x21#8, 2#8) := by decide
/-- V44 -/
theorem test_call : (nextOf (step ((place 6#8 [0x50#8, 1#8]).setReg 1 11#8))).map
    (fun t => (t.sp, t.mem.read 0xF3, t.pc)) = some (0xF3#8, 8#8, 11#8) := by decide
/-- V46 -/
theorem test_call_sp : (nextOf (step (place 0#8 [0x50#8, 7#8]))).map
    (fun t => (t.sp, t.mem.read 0xF3, t.pc)) = some (0xF3#8, 2#8, 0xF3#8) := by decide
/-- V47 -/
theorem test_ret : (nextOf (step (((place 14#8 [0x11#8]).setReg 7 0xF3#8).setCell 0xF3 8#8))).map
    (fun t => (t.pc, t.sp)) = some (8#8, 0xF4#8) := by decide
/-- V48 -/
theorem test_ret_at_the_top : (nextOf (step (((place 0#8 [0x11#8]).setReg 7 255#8).setCell 255 0x77#8))).map
    (fun t => (t.faultCause, t.faultInfo, t.sp, t.pc)) = some (.outOfBounds, 256, 255#8, 0#8) := by decide
/-- V49a -/
theorem test_jmp_at_254 : (nextOf (step (place 254#8 [0x54#8, 1#8]))).map (fun t => (t.pc, t.run)) =
    some (0#8, .running) := by decide
/-- V49b -/
theorem test_jmp_at_255 : (nextOf (step (place 255#8 [0x54#8]))).map
    (fun t => (t.faultCause, t.faultInfo, t.pc)) = some (.outOfBounds, 256, 255#8) := by decide
/-- V54 -/
theorem test_jeq_before_any_cmp : (nextOf (step ((place 3#8 [0x55#8, 1#8]).setReg 1 9#8))).map (fun t => t.pc) =
    some 5#8 := by decide
/-- V56 -/
theorem test_jeq_not_taken_checks_register : (nextOf (step (place 0#8 [0x55#8, 8#8]))).map
    (fun t => (t.faultCause, t.faultInfo)) = some (.invalidRegister, 8) := by decide
/-- V55 -/
theorem test_jne_before_any_cmp : (nextOf (step ((place 3#8 [0x56#8, 1#8]).setReg 1 8#8))).map (fun t => t.pc) =
    some 8#8 := by decide
/-- V53 -/
theorem test_jne_not_taken : (nextOf (step (((place 20#8 [0x56#8, 3#8]).setReg 3 12#8).setFlags
    ⟨true, false, false⟩))).map (fun t => t.pc) = some 22#8 := by decide
/-- V61 -/
theorem test_illegal_opcode : (nextOf (step (place 0#8 [0xFF#8]))).map
    (fun t => (t.run, t.faultCause, t.faultInfo, t.pc, t.out)) = some (.halted, .illegalInstruction, 255, 0#8, []) := by
  decide
/-- V60: reset memory holds no instruction. -/
theorem test_reset_memory_is_illegal : (nextOf (step State.reset)).map (fun t => (t.faultCause, t.faultInfo)) =
    some (.illegalInstruction, 0) := by decide

/-! ### Witnesses: a state and operands that meet the hypotheses of each statement that has some -/

theorem witness_decode_exactly_inverts_encode : decode ([0xA7#8, 0#8, 7#8] ++ [0x01#8]) = .ok (.cmp 0#8 7#8, [0x01#8]) ∧
    [0xA7#8, 0#8, 7#8] = encode (.cmp 0#8 7#8) := by exact ⟨rfl, rfl⟩

theorem witness_opcode_map_illegal :
    0xA1#8 ∉ [0x01#8, 0x82#8, 0x47#8, 0xA2#8, 0xA0#8, 0x45#8, 0x46#8, 0x50#8, 0x11#8, 0xA7#8, 0x54#8, 0x55#8, 0x56#8] := by
  decide

theorem witness_length_same_opcode : (Instr.ldi 0#8 1#8).opcode = (Instr.ldi 7#8 255#8).opcode := by rfl

theorem witness_mem_read_out_of_range : ((-1 : Int) < 0 ∨ 255 < (-1 : Int)) ∧ ((256 : Int) < 0 ∨ 255 < (256 : Int)) ∧
    (255 : Nat) ≤ 255 := by decide

theorem witness_mem_write : State.reset.mem.wf ∧ (255 : Nat) ≤ 255 := by decide

theorem witness_equal_memories : Memory.wf [(0, 1#8), (255, 2#8)] := by decide

theorem witness_undefined_opcode : State.reset.run = .running ∧
    (dispatch (State.reset.mem.read State.reset.pc.toNat)).isNone = true := by decide

theorem witness_undefined_opcode_exec : ∃ t, exec .hlt State.reset = .next t ∧
    State.reset.faultCause ≠ .illegalInstruction :=
  next_with (by decide)

theorem witness_operand_fetch_past_memory :
    (place 255#8 [0x47#8]).run = .running ∧ (place 254#8 [0x82#8, 0#8]).run = .running ∧
    ((dispatch ((place 255#8 [0x47#8]).mem.read 255)).map Handler.operandCount) = some 1 ∧
    ((dispatch ((place 254#8 [0x82#8, 0#8]).mem.read 254)).map Handler.operandCount) = some 2 := by decide

theorem witness_bad_register_operand :
    (Instr.add 7#8 8#8).registerOperands.find? (fun o => decide (7 < o.toNat)) = some 8#8 ∧
    (Instr.add 9#8 200#8).registerOperands.find? (fun o => decide (7 < o.toNat)) = some 9#8 := by decide

theorem witness_good_register_operand : ∃ t, exec (.add 7#8 0#8) State.reset = .next t ∧
    (Instr.add 7#8 0#8).WellFormed ∧ State.reset.faultCause ≠ .invalidRegister :=
  next_with (by decide)

theorem witness_push_fault :
    (0#8 : Byte).toNat = (0 : Reg).val ∧ (State.reset.setReg spReg 0#8).sp.toNat = 0 := by decide

theorem witness_pop_fault : (0#8 : Byte).toNat = (0 : Reg).val ∧ (0 : Reg) ≠ spReg ∧
    (State.reset.setReg spReg 255#8).sp.toNat = 255 := by decide

theorem witness_pop_sp_fault : (7#8 : Byte).toNat = spReg.val ∧
    (State.reset.setCell 0xF4 255#8).mem.read (State.reset.setCell 0xF4 255#8).sp.toNat = 255#8 := by decide

theorem witness_call_return_address_fault :
    (1#8 : Byte).toNat = (1 : Reg).val ∧ (State.reset.setPc 254#8).pc.toNat = 254 := by decide

theorem witness_call_sp_fault : (1#8 : Byte).toNat = (1 : Reg).val ∧
    ((State.reset.setPc 253#8).setReg spReg 0#8).pc.toNat ≤ 253 ∧
    ((State.reset.setPc 253#8).setReg spReg 0#8).sp.toNat = 0 := by decide

theorem witness_ret_fault : (0#8 : Byte).toNat = (0 : Reg).val ∧
    (State.reset.setReg spReg 255#8).sp.toNat = 255 := by decide

theorem witness_advance_in_range : (Instr.pop 0#8).advances State.reset.flags.equal = true ∧
    ((nextOf (exec (.pop 0#8) ((State.reset.setPc 253#8).setPc 0#8))).map fun t => decide (t.pc.toNat = 2)) = some true ∧
    (255#8 : Byte).toNat = (State.reset.setPc 253#8).pc.toNat + (Instr.pop 0#8).length := by decide

theorem witness_advance_past_the_top : (Instr.ldi 0#8 5#8).advances State.reset.flags.equal = true ∧
    ((nextOf (exec (.ldi 0#8 5#8) ((State.reset.setPc 253#8).setPc 0#8))).map fun t => decide (t.pc.toNat = 3)) =
      some true ∧
    255 < (State.reset.setPc 253#8).pc.toNat + (Instr.ldi 0#8 5#8).length := by decide

theorem witness_three_byte_instruction : (7#8 : Byte).toNat = (7 : Reg).val ∧ (0#8 : Byte).toNat = (0 : Reg).val ∧
    (State.reset.setPc 252#8).pc.toNat + 3 ≤ 255 := by decide

theorem witness_two_byte_instruction : (7#8 : Byte).toNat = (7 : Reg).val ∧
    (State.reset.setPc 253#8).pc.toNat + 2 ≤ 255 := by decide

theorem witness_ldi_in_memory : (place 253#8 [0x82#8, 7#8, 255#8]).run = .running ∧
    (place 253#8 [0x82#8, 7#8, 255#8]).pc.toNat + 2 ≤ 255 ∧
    (place 253#8 [0x82#8, 7#8, 255#8]).mem.read 253 = 0x82#8 ∧
    ((place 253#8 [0x82#8, 7#8, 255#8]).mem.read 254).toNat = (7 : Reg).val := by decide

theorem witness_push : (7#8 : Byte).toNat = (7 : Reg).val ∧
    ((State.reset.setPc 253#8).setReg spReg 1#8).pc.toNat + 2 ≤ 255 ∧
    1 ≤ ((State.reset.setPc 253#8).setReg spReg 1#8).sp.toNat ∧
    ((State.reset.setPc 253#8).setReg spReg 1#8).mem.wf := by decide

theorem witness_pop : (0#8 : Byte).toNat = (0 : Reg).val ∧ (0 : Reg) ≠ spReg ∧
    ((State.reset.setPc 253#8).setReg spReg 254#8).sp.toNat ≤ 254 ∧
    ((State.reset.setPc 253#8).setReg spReg 254#8).pc.toNat + 2 ≤ 255 := by decide

theorem witness_pop_sp : (7#8 : Byte).toNat = spReg.val ∧ (State.reset.setCell 0xF4 254#8).pc.toNat + 2 ≤ 255 ∧
    ((State.reset.setCell 0xF4 254#8).mem.read (State.reset.setCell 0xF4 254#8).sp.toNat).toNat ≤ 254 := by decide

theorem witness_call : (1#8 : Byte).toNat = (1 : Reg).val ∧ (State.reset.setPc 253#8).pc.toNat + 2 ≤ 255 ∧
    1 ≤ (State.reset.setPc 253#8).sp.toNat ∧ (State.reset.setPc 253#8).mem.wf := by decide

theorem witness_ret : (State.reset.setReg spReg 254#8).sp.toNat ≤ 254 := by decide

theorem witness_jump_register : (7#8 : Byte).toNat = (7 : Reg).val := by decide

theorem witness_jump_equal : (7#8 : Byte).toNat = (7 : Reg).val ∧
    (State.reset.setFlags ⟨true, false, false⟩).flags.equal = true ∧
    ((State.reset.setPc 253#8).setFlags ⟨true, false, false⟩).pc.toNat + 2 ≤ 255 := by decide

theorem witness_jump_not_equal : (7#8 : Byte).toNat = (7 : Reg).val ∧ State.reset.flags.equal = false ∧
    (State.reset.setPc 253#8).pc.toNat + 2 ≤ 255 := by decide

theorem witness_frame_ldi_mul_add : ∃ t, exec (.mul 7#8 0#8) State.reset = .next t ∧
    Instr.mul 7#8 0#8 ∈ [Instr.ldi 7#8 3#8, Instr.mul 7#8 0#8, Instr.add 7#8 0#8] :=
  next_with (by decide)

theorem witness_frame_cmp_prn_jumps : ∃ t, exec (.jne 0#8) State.reset = .next t ∧
    Instr.jne 0#8 ∈ [Instr.cmp 0#8 1#8, Instr.prn 0#8, Instr.jmp 0#8, Instr.jeq 0#8, Instr.jne 0#8] :=
  next_with (by decide)

theorem witness_frame_push_call : ∃ t, exec (.call 0#8) State.reset = .next t ∧
    Instr.call 0#8 ∈ [Instr.push 0#8, Instr.call 0#8] :=
  next_with (by decide)

theorem witness_frame_pop_ret : ∃ t, exec .ret State.reset = .next t ∧
    Instr.ret ∈ [Instr.pop 0#8, Instr.ret] :=
  next_with (by decide)

theorem witness_step_runs : (place 253#8 [0xA0#8, 0#8, 1#8]).run = .running ∧
    (place 253#8 [0xA0#8, 0#8, 1#8]).pc.toNat + (Instr.add 0#8 1#8).length ≤ 256 ∧
    (List.range 3).map (fun k => (place 253#8 [0xA0#8, 0#8, 1#8]).mem.read (253 + k)) = encode (.add 0#8 1#8) := by
  decide

theorem witness_halted : State.reset.halt.run = .halted := by decide

theorem witness_run_ends_by_hlt : ∃ t, step (place 0#8 [0x01#8]) = .next t ∧
    t.run = .halted ∧ t.faultCause = .none :=
  next_with (by decide)

theorem witness_run_ends_by_raise : ∃ t, step State.reset = .next t ∧
    State.reset.run = .running ∧ State.reset.faultCause = .none ∧ t.run = .halted ∧ t.faultCause = .illegalInstruction :=
  next_with (by decide)

theorem witness_run_goes_on : ∃ t, step (place 0#8 [0x54#8, 0#8]) = .next t ∧
    t.run = .running :=
  next_with (by decide)

theorem witness_flags_change : ∃ t, step (place 0#8 [0xA7#8, 0#8, 0#8]) = .next t ∧
    t.flags ≠ (place 0#8 [0xA7#8, 0#8, 0#8]).flags :=
  next_with (by decide)

theorem witness_cell_changes : ∃ t, step (place 0#8 [0x45#8, 7#8]) = .next t ∧
    t.mem.read 0xF3 ≠ (place 0#8 [0x45#8, 7#8]).mem.read 0xF3 :=
  next_with (by decide)

theorem witness_output_grows : ∃ t, step (place 0#8 [0x47#8, 7#8]) = .next t ∧
    t.out ≠ [] :=
  next_with (by decide)

theorem witness_register_sets : ∃ t, exec (.pop 0#8) State.reset = .next t ∧
    (1 : Reg).val ∉ (Instr.pop 0#8).writesRegisters ∧ (0 : Reg).val ∉ (Instr.pop 0#8).readsRegisters false :=
  next_with (by decide)

theorem witness_stored_byte_push : ∃ t, exec (.push 0#8) ((State.reset.setPc 6#8).setReg spReg 9#8) = .next t ∧
    t.run = .running ∧ t.pc = t.sp ∧ ((State.reset.setPc 6#8).setReg spReg 9#8).mem.wf :=
  next_with (by decide)

theorem witness_stored_byte_call : ∃ t, exec (.call 7#8) State.reset = .next t ∧
    t.run = .running ∧ t.pc = t.sp :=
  next_with (by decide)

theorem witness_invariant : ((place 0#8 [0x82#8, 7#8, 1#8]).setFlags ⟨false, true, false⟩).Inv ∧
    ∃ t, step ((place 0#8 [0x82#8, 7#8, 1#8]).setFlags ⟨false, true, false⟩) = .next t ∧ t.sp = 1#8 := by
  refine ⟨⟨by decide, ?_, rfl, rfl⟩, next_with (by decide)⟩
  simp [State.flagsExclusive]

theorem witness_one_flag_set : ∃ t, step (State.reset.setFlags ⟨false, false, true⟩) = .next t ∧
    [false, false, true].count true = 1 :=
  next_with (by decide)

theorem witness_boot : (State.boot [0x82#8, 0#8, 8#8]).isSome = true ∧ ([0x82#8, 0#8, 8#8] : List Byte).length ≤ 256 := by
  decide

theorem witness_boot_too_long : 256 < (List.replicate 257 (0#8 : Byte)).length := by
  rw [List.length_replicate]; omega

theorem witness_run_from_image : State.boot [] = some State.reset ∧ ∃ t, core.run 2 State.reset = .next t ∧
    t.run = .halted := ⟨rfl, next_with (by decide)⟩

theorem witness_agrees_on_readable : State.reset.mem.wf ∧
    State.reset.agreesOnReadable (State.reset.setFlags ⟨false, true, true⟩) ∧
    ∃ t, step State.reset = .next t ∧ t.run = .halted :=
  ⟨by decide, ⟨fun _ => rfl, rfl, rfl, rfl, fun _ => rfl⟩, next_with (by decide)⟩

/-- The push-pop law's premises at `x[7]` = 1, where the pushed byte lands on the PUSH itself. -/
theorem witness_push_pop :
    ((place 0#8 [0x45#8, 2#8, 0x46#8, 2#8]).setReg spReg 1#8).run = .running ∧
    ((place 0#8 [0x45#8, 2#8, 0x46#8, 2#8]).setReg spReg 1#8).mem.wf ∧
    ((place 0#8 [0x45#8, 2#8, 0x46#8, 2#8]).setReg spReg 1#8).sp.toNat = 1 ∧
    ((place 0#8 [0x45#8, 2#8, 0x46#8, 2#8]).mem.readBytes 0 4) = [0x45#8, 2#8, 0x46#8, 2#8] ∧
    ((place 0#8 [0x45#8, 2#8, 0x46#8, 2#8]).setReg spReg 1#8).pc.toNat = 0 ∧ (2#8 : Byte).toNat = (2 : Reg).val := by decide

/-- The call-return law's premises with the CALL at 253 and the RET at its target 0. -/
theorem witness_call_return : (place 253#8 [0x50#8, 1#8]).run = .running ∧ (place 253#8 [0x50#8, 1#8]).mem.wf ∧
    (place 253#8 [0x50#8, 1#8]).pc.toNat ≤ 253 ∧ 1 ≤ (place 253#8 [0x50#8, 1#8]).sp.toNat ∧
    (place 253#8 [0x50#8, 1#8]).mem.readBytes 253 2 = [0x50#8, 1#8] ∧
    ((nextOf (step ((place 253#8 [0x50#8, 1#8]).setCell 0 0x11#8))).map fun t =>
      (t.run, t.mem.read t.pc.toNat, t.sp, t.mem.read t.sp.toNat)) = some (.running, 0x11#8, 0xF3#8, 255#8) := by decide

end Sys2Proof.Tests
end

section
/-! ### Fetch: what a successful and a failed fetch say about memory at `pc` (30_encoding.md R57, R58) -/

namespace Sys2Proof

/-- Every instruction has its opcode byte. -/
theorem Instr.length_pos (i : Instr) : 0 < i.length := Nat.succ_pos _

/-- The decoder takes exactly the instruction's encoding off the front. -/
theorem eq_encode_append_of_decode {bs rest : List Byte} {i : Instr} (h : decode bs = .ok (i, rest)) :
    bs = encode i ++ rest := by
  unfold decode at h
  split at h
  · cases h
  · split at h <;> cases h
    all_goals
      next hd =>
        rcases dispatch_cases hd with h | h | h | h | h | h | h | h | h | h | h | h | h
        all_goals
          obtain ⟨rfl, h⟩ := h
          cases h <;> rfl

/-- Only an opcode byte without an entry is rejected as illegal. -/
theorem decode_eq_illegal {bs : List Byte} {op : Byte} (h : decode bs = .error (.illegalInstruction op)) :
    bs.head? = some op ∧ dispatch op = none := by
  unfold decode at h
  split at h
  · cases h
  · split at h <;> cases h
    exact ⟨rfl, by assumption⟩

/-- A missing byte is the first one past the end, and no instruction has a fourth. -/
theorem decode_eq_missing {bs : List Byte} {k : Nat} (h : decode bs = .error (.missingByte k)) :
    bs.length = k ∧ k < Config.longestInstruction := by
  unfold decode at h
  split at h
  · cases h; exact ⟨rfl, by decide⟩
  · split at h <;> cases h <;> exact ⟨rfl, by decide⟩

end Sys2Proof

namespace Sys2Proof.Machine

/-- A front part of the bytes read lies in memory, cell by cell. -/
theorem Memory.readBytes_eq_append {m : Memory} {a n : Nat} {bs rest : List Byte}
    (ha : a ≤ 256) (h : m.readBytes a n = bs ++ rest) :
    a + bs.length ≤ 256 ∧ ∀ k b, bs[k]? = some b → m.read (a + k) = b := by
  induction bs generalizing a n with
  | nil => simpa using ha
  | cons c bs ih =>
    cases n with
    | zero => simp [Memory.readBytes_zero] at h
    | succ n =>
      by_cases hlt : a < 256
      · rw [Memory.readBytes_succ_of_lt hlt, List.cons_append, List.cons.injEq] at h
        obtain ⟨hc, hbs⟩ := h
        obtain ⟨hle, hcells⟩ := ih hlt hbs
        refine ⟨by simp only [List.length_cons]; omega, fun k b hk => ?_⟩
        cases k with
        | zero => simpa [hc] using hk
        | succ k => rw [← hcells k b (by simpa using hk)]; congr 1; omega
      · simp [Memory.readBytes_of_ge (Nat.le_of_not_lt hlt)] at h

theorem Memory.length_readBytes {m : Memory} {a n : Nat} (ha : a ≤ 256) :
    (m.readBytes a n).length = min n (256 - a) := by
  induction n generalizing a with
  | zero => simp [Memory.readBytes_zero]
  | succ n ih =>
    by_cases hlt : a < 256
    · rw [Memory.readBytes_succ_of_lt hlt, List.length_cons, ih hlt]; omega
    · rw [Memory.readBytes_of_ge (Nat.le_of_not_lt hlt), List.length_nil]; omega

/-- The instruction's bytes stand in memory at `pc`, the last one at most in cell 255. -/
structure State.Fetches (s : State) (i : Instr) : Prop where
  fits : s.pc.toNat + i.length ≤ 256
  cells : ∀ k b, (encode i)[k]? = some b → s.mem.read (s.pc.toNat + k) = b

theorem State.Fetches.opcode {s : State} {i : Instr} (h : s.Fetches i) : s.mem.read s.pc.toNat = i.opcode :=
  h.cells 0 i.opcode rfl

theorem State.fetches_of_fetchDecode {s : State} {i : Instr} (h : s.fetchDecode = .ok i) : s.Fetches i := by
  unfold State.fetchDecode at h
  split at h <;> cases h
  next hd =>
    obtain ⟨hfits, hcells⟩ := Memory.readBytes_eq_append (by omega) (eq_encode_append_of_decode hd)
    exact ⟨hfits, hcells⟩

/-- The two faults a fetch can find. -/
theorem State.fetchDecode_error_cases {s : State} {cause : FaultCause} {info : Int}
    (h : s.fetchDecode = .error (cause, info)) :
    (cause = .illegalInstruction ∧ info = (s.mem.read s.pc.toNat).toNat ∧ dispatch (s.mem.read s.pc.toNat) = none) ∨
      (cause = .outOfBounds ∧ info = 256) := by
  unfold State.fetchDecode at h
  split at h <;> cases h
  next op hd =>
    obtain ⟨hop, hnone⟩ := decode_eq_illegal hd
    rw [State.fetchBytes_eq, List.head?_cons, Option.some.injEq] at hop
    exact .inl ⟨rfl, by rw [hop], by rw [hop, hnone]⟩
  next k hd =>
    obtain ⟨hlen, hk⟩ := decode_eq_missing hd
    rw [State.fetchBytes, Memory.length_readBytes (by omega)] at hlen
    simp only [Config.longestInstruction] at hlen hk
    exact .inr ⟨rfl, by omega⟩

end Sys2Proof.Machine
end

section
/-! ### What an instruction and a step can do: one inversion for `exec`, one for `step` -/

namespace Sys2Proof.Machine

/-- What an instruction has done to the state by the time it moves `pc` or raises: nothing yet, or its whole effect on
registers, flags, output and memory, or for a POP at the top of the stack the loaded register alone. -/
inductive Effect (s : State) : Instr → State → Prop
  | none (i : Instr) : Effect s i s
  | ldi {a imm8 : Byte} {r : Reg} (ha : a.toNat = r.val) : Effect s (.ldi a imm8) (s.setReg r imm8)
  | prn {a : Byte} {r : Reg} (ha : a.toNat = r.val) : Effect s (.prn a) (s.output (s.reg r))
  | mul {a b : Byte} {ra rb : Reg} (ha : a.toNat = ra.val) (hb : b.toNat = rb.val) :
      Effect s (.mul a b) (s.setReg ra (aluMul (s.reg ra) (s.reg rb)))
  | add {a b : Byte} {ra rb : Reg} (ha : a.toNat = ra.val) (hb : b.toNat = rb.val) :
      Effect s (.add a b) (s.setReg ra (aluAdd (s.reg ra) (s.reg rb)))
  | cmp {a b : Byte} {ra rb : Reg} (ha : a.toNat = ra.val) (hb : b.toNat = rb.val) :
      Effect s (.cmp a b) (s.setFlags (compareFlags (s.reg ra) (s.reg rb)))
  | push {a p : Byte} {r : Reg} (ha : a.toNat = r.val) (hp : p.toNat + 1 = s.sp.toNat) :
      Effect s (.push a) ((s.setReg spReg p).setCell p.toNat ((s.setReg spReg p).reg r))
  | popLoad {a : Byte} {r : Reg} (ha : a.toNat = r.val) :
      Effect s (.pop a) (s.setReg r (s.mem.read s.sp.toNat))
  | pop {a p : Byte} {r : Reg} (ha : a.toNat = r.val)
      (hp : p.toNat = (s.setReg r (s.mem.read s.sp.toNat)).sp.toNat + 1) :
      Effect s (.pop a) ((s.setReg r (s.mem.read s.sp.toNat)).setReg spReg p)
  | call {a p ret : Byte} (hret : ret.toNat = s.pc.toNat + 2) (hp : p.toNat + 1 = s.sp.toNat) :
      Effect s (.call a) ((s.setReg spReg p).setCell p.toNat ret)
  | ret {p : Byte} (hp : p.toNat = s.sp.toNat + 1) : Effect s .ret (s.setReg spReg p)

/-- How an instruction ends: it moves `pc` after its effect, halts, or raises one of the faults of
60_exceptions.md R113 and R114. -/
inductive Ends (s : State) (i : Instr) : State → Prop
  | moves {u : State} (p : Byte) (hu : Effect s i u) : Ends s i (u.setPc p)
  | halts (hi : i = .hlt) : Ends s i s.halt
  | badRegister {o : Byte} (ho : o ∈ i.registerOperands) (hge : 8 ≤ o.toNat) :
      Ends s i (s.raise .invalidRegister o.toNat)
  | belowZero : Ends s i (s.raise .outOfBounds (-1))
  | stackTop {u : State} (hu : Effect s i u) : Ends s i (u.raise .outOfBounds 256)
  | pastTop {u : State} (hu : Effect s i u) (hgt : 255 < s.pc.toNat + i.length) :
      Ends s i (u.raise .outOfBounds (s.pc.toNat + i.length))

namespace Effect

variable {s u : State} {i : Instr}

/-- No effect moves `pc`, ends the run or touches the fault record. -/
theorem keeps_pc (h : Effect s i u) : u.pc = s.pc := by cases h <;> rfl

theorem keeps_run (h : Effect s i u) : u.run = s.run := by cases h <;> rfl

theorem keeps_faultCause (h : Effect s i u) : u.faultCause = s.faultCause := by cases h <;> rfl

theorem keeps_faultInfo (h : Effect s i u) : u.faultInfo = s.faultInfo := by cases h <;> rfl

theorem flags_cases (h : Effect s i u) :
    u.flags = s.flags ∨ ((∃ a b, i = .cmp a b) ∧ ∃ v w, u.flags = compareFlags v w) := by
  cases h with
  | cmp => exact .inr ⟨⟨_, _, rfl⟩, _, _, rfl⟩
  | _ => exact .inl rfl

theorem out_cases (h : Effect s i u) :
    u.out = s.out ∨ ∃ (a : Byte) (r : Reg), i = .prn a ∧ a.toNat = r.val ∧ u.out = s.out ++ [s.reg r] := by
  cases h with
  | prn ha => exact .inr ⟨_, _, rfl, ha, rfl⟩
  | _ => exact .inl rfl

theorem mem_cases (h : Effect s i u) : u.mem = s.mem ∨ ∃ p v : Byte, u.mem = s.mem.write p.toNat v := by
  cases h with
  | push => exact .inr ⟨_, _, rfl⟩
  | call => exact .inr ⟨_, _, rfl⟩
  | _ => exact .inl rfl

theorem keeps_wf (h : Effect s i u) (hs : s.mem.wf) : u.mem.wf := by
  rcases h.mem_cases with hm | ⟨p, v, hm⟩
  · exact hm ▸ hs
  · exact hm ▸ Memory.wf_write _ _ _ hs p.isLt

/-- An effect writes at most the registers of 10_state.md R11's last column. -/
theorem keeps_reg (h : Effect s i u) {q : Reg} (hq : q.val ∉ i.writesRegisters) : u.reg q = s.reg q := by
  cases h with
  | ldi ha | mul ha | add ha | popLoad ha =>
    simp only [Instr.writesRegisters, List.mem_cons, not_or, ha] at hq
    exact State.reg_setReg_other _ _ _ _ (Fin.ne_of_val_ne hq.1)
  | push | call | ret =>
    simp only [Instr.writesRegisters, List.mem_singleton] at hq
    exact State.reg_setReg_other _ _ _ _ (Fin.ne_of_val_ne hq)
  | pop ha =>
    simp only [Instr.writesRegisters, List.mem_cons, not_or, ha] at hq
    rw [State.reg_setReg_other _ _ _ _ (Fin.ne_of_val_ne hq.2.1), State.reg_setReg_other _ _ _ _ (Fin.ne_of_val_ne hq.1)]
  | none | prn | cmp => rfl

end Effect

/-- An instruction that ends in `Advance` of its own length ends as `Ends` says. -/
theorem Effect.ends_of_advance {s u t : State} {i : Instr} {w : Nat} (hu : Effect s i u) (hw : w = i.length)
    (h : advance w u = .next t) : Ends s i t := by
  subst hw
  rcases advance_cases h with ⟨p, -, rfl⟩ | ⟨hgt, rfl⟩
  · exact .moves p hu
  · rw [hu.keeps_pc] at hgt ⊢
    exact .pastTop hu hgt

/-- The operand check of one register either goes on or ends the instruction. -/
theorem ends_of_withReg {s t : State} {i : Instr} {a : Byte} {k : Reg → Result} (h : withReg a s k = .next t)
    (hmem : a ∈ i.registerOperands) (hk : ∀ r : Reg, a.toNat = r.val → k r = .next t → Ends s i t) : Ends s i t := by
  rcases withReg_cases h with ⟨r, hr, h⟩ | ⟨hge, rfl⟩
  · exact hk r hr h
  · exact .badRegister hmem hge

theorem ends_of_withRegs {s t : State} {i : Instr} {a b : Byte} {k : Reg → Reg → Result}
    (h : withRegs a b s k = .next t) (ha : a ∈ i.registerOperands) (hb : b ∈ i.registerOperands)
    (hk : ∀ ra rb : Reg, a.toNat = ra.val → b.toNat = rb.val → k ra rb = .next t → Ends s i t) : Ends s i t :=
  ends_of_withReg h ha fun ra hra h => ends_of_withReg h hb fun rb hrb h => hk ra rb hra hrb h

theorem ends_of_push {s t : State} {a : Byte} (h : exec (.push a) s = .next t) : Ends s (.push a) t := by
  refine ends_of_withReg h List.mem_cons_self fun r hr h => ?_
  rcases decrementSp_cases h with ⟨p, hp, h⟩ | ⟨-, rfl⟩
  · rw [memWrite_of_byte] at h
    exact (Effect.push hr hp).ends_of_advance rfl h
  · exact .belowZero

theorem ends_of_pop {s t : State} {a : Byte} (h : exec (.pop a) s = .next t) : Ends s (.pop a) t := by
  refine ends_of_withReg h List.mem_cons_self fun r hr h => ?_
  rw [memRead_of_byte] at h
  rcases incrementSp_cases h with ⟨p, hp, h⟩ | ⟨-, rfl⟩
  · exact (Effect.pop hr hp).ends_of_advance rfl h
  · exact .stackTop (.popLoad hr)

theorem ends_of_call {s t : State} {a : Byte} (h : exec (.call a) s = .next t) : Ends s (.call a) t := by
  refine ends_of_withReg h List.mem_cons_self fun r hr h => ?_
  rcases returnAddress_cases h with ⟨ret, hret, h⟩ | ⟨hge, rfl⟩
  · rcases decrementSp_cases h with ⟨p, hp, h⟩ | ⟨-, rfl⟩
    · rw [memWrite_of_byte] at h
      cases h
      exact .moves _ (.call hret hp)
    · exact .belowZero
  · exact .pastTop (.none _) (show 255 < s.pc.toNat + 2 by omega)

theorem ends_of_ret {s t : State} (h : exec .ret s = .next t) : Ends s .ret t := by
  rw [show exec .ret s = execRet s from rfl, execRet, memRead_of_byte] at h
  rcases incrementSp_cases h with ⟨p, hp, h⟩ | ⟨-, rfl⟩
  · cases h
    exact .moves _ (.ret hp)
  · exact .stackTop (.none _)

/-- Everything an instruction can do. -/
theorem exec_ends {i : Instr} {s t : State} (h : exec i s = .next t) : Ends s i t := by
  cases i with
  | hlt => cases h; exact .halts rfl
  | ldi a imm8 =>
    exact ends_of_withReg h List.mem_cons_self fun r hr h => (Effect.ldi hr).ends_of_advance rfl h
  | prn a =>
    exact ends_of_withReg h List.mem_cons_self fun r hr h => (Effect.prn hr).ends_of_advance rfl h
  | mul a b =>
    exact ends_of_withRegs h List.mem_cons_self (List.mem_cons_of_mem _ List.mem_cons_self)
      fun ra rb ha hb h => (Effect.mul ha hb).ends_of_advance rfl h
  | add a b =>
    exact ends_of_withRegs h List.mem_cons_self (List.mem_cons_of_mem _ List.mem_cons_self)
      fun ra rb ha hb h => (Effect.add ha hb).ends_of_advance rfl h
  | cmp a b =>
    exact ends_of_withRegs h List.mem_cons_self (List.mem_cons_of_mem _ List.mem_cons_self)
      fun ra rb ha hb h => (Effect.cmp ha hb).ends_of_advance rfl h
  | push a => exact ends_of_push h
  | pop a => exact ends_of_pop h
  | call a => exact ends_of_call h
  | ret => exact ends_of_ret h
  | jmp a =>
    refine ends_of_withReg h List.mem_cons_self fun r hr h => ?_
    cases h
    exact .moves _ (.none _)
  | jeq a =>
    refine ends_of_withReg h List.mem_cons_self fun r hr h => ?_
    split at h
    · cases h; exact .moves _ (.none _)
    · exact (Effect.none _).ends_of_advance rfl h
  | jne a =>
    refine ends_of_withReg h List.mem_cons_self fun r hr h => ?_
    split at h
    · exact (Effect.none _).ends_of_advance rfl h
    · cases h; exact .moves _ (.none _)

/-- How a step ends: the idle step of a HALTED machine (log 5), the instruction at `pc`, or a fault of the fetch. -/
inductive StepEnds (s : State) : State → Prop
  | idle (hrun : s.run = .halted) : StepEnds s s
  | runs {i : Instr} {t : State} (hrun : s.run = .running) (hfetch : s.Fetches i) (hends : Ends s i t) : StepEnds s t
  | illegal (hrun : s.run = .running) (hnone : dispatch (s.mem.read s.pc.toNat) = none) :
      StepEnds s (s.raise .illegalInstruction (s.mem.read s.pc.toNat).toNat)
  | fetchPastTop (hrun : s.run = .running) : StepEnds s (s.raise .outOfBounds 256)

/-- Everything a step can do. -/
theorem step_ends {s t : State} (h : step s = .next t) : StepEnds s t := by
  cases hrun : s.run with
  | halted => rw [step_halted hrun] at h; cases h; exact .idle hrun
  | running =>
    cases hf : s.fetchDecode with
    | ok i => exact .runs hrun (State.fetches_of_fetchDecode hf) (exec_ends (step_of_ok hrun hf ▸ h))
    | error e =>
      obtain ⟨cause, info⟩ := e
      rw [step_of_error hrun hf] at h
      cases h
      rcases State.fetchDecode_error_cases hf with ⟨rfl, rfl, hnone⟩ | ⟨rfl, rfl⟩
      · exact .illegal hrun hnone
      · exact .fetchPastTop hrun

end Sys2Proof.Machine
end

section
/-! ### What a step does to each part of the state, read off the inversions -/

namespace Sys2Proof.Machine

/-- Registers, flags, output and memory at the end of an instruction are those its effect left. -/
theorem Ends.effect {s t : State} {i : Instr} (h : Ends s i t) :
    ∃ u, Effect s i u ∧ (∀ q, t.reg q = u.reg q) ∧ t.flags = u.flags ∧ t.out = u.out ∧ t.mem = u.mem := by
  cases h with
  | moves _ hu | stackTop hu | pastTop hu => exact ⟨_, hu, fun _ => rfl, rfl, rfl, rfl⟩
  | halts | badRegister | belowZero => exact ⟨s, .none i, fun _ => rfl, rfl, rfl, rfl⟩

/-- A register operand is the byte at `pc + 1` or the one at `pc + 2` (30_encoding.md R52). -/
theorem State.Fetches.registerOperand {s : State} {i : Instr} {o : Byte} (h : s.Fetches i)
    (ho : o ∈ i.registerOperands) :
    o = s.mem.read (s.pc.toNat + 1) ∨ o = s.mem.read (s.pc.toNat + 2) := by
  have hbyte : (encode i)[1]? = some o ∨ (encode i)[2]? = some o := by
    cases i <;> simp_all [Instr.registerOperands, encode, Instr.operandBytes, eq_comm]
  exact hbyte.imp (fun h1 => (h.cells 1 o h1).symm) fun h2 => (h.cells 2 o h2).symm

namespace StepEnds

variable {s t : State}

theorem flags_cases (h : StepEnds s t) :
    t.flags = s.flags ∨
      ((s.run = .running ∧ s.mem.read s.pc.toNat = 0xA7#8) ∧ ∃ v w, t.flags = compareFlags v w) := by
  cases h with
  | runs hrun hfetch hends =>
    obtain ⟨u, hu, -, hflags, -, -⟩ := hends.effect
    rw [hflags]
    refine hu.flags_cases.imp id fun ⟨⟨a, b, hi⟩, hcmp⟩ => ?_
    subst hi
    exact ⟨⟨hrun, hfetch.opcode⟩, hcmp⟩
  | idle | illegal | fetchPastTop => exact .inl rfl

theorem out_cases (h : StepEnds s t) :
    t.out = s.out ∨ (s.run = .running ∧ s.mem.read s.pc.toNat = 0x47#8 ∧
      ∃ r : Reg, (s.mem.read (s.pc.toNat + 1)).toNat = r.val ∧ t.out = s.out ++ [s.reg r]) := by
  cases h with
  | runs hrun hfetch hends =>
    obtain ⟨u, hu, -, -, hout, -⟩ := hends.effect
    rw [hout]
    refine hu.out_cases.imp id fun ⟨a, r, hi, ha, hr⟩ => ?_
    subst hi
    exact ⟨hrun, hfetch.opcode, r, by rw [hfetch.cells 1 a rfl, ha], hr⟩
  | idle | illegal | fetchPastTop => exact .inl rfl

theorem keeps_wf (h : StepEnds s t) (hs : s.mem.wf) : t.mem.wf := by
  cases h with
  | runs _ _ hends =>
    obtain ⟨u, hu, -, -, -, hmem⟩ := hends.effect
    exact hmem ▸ hu.keeps_wf hs
  | idle | illegal | fetchPastTop => exact hs

/-- A step of a RUNNING machine goes on with the record as it was, is the HLT at `pc`, or raises a fault that the memory
at `pc` explains. -/
theorem record_cases (h : StepEnds s t) (hrun : s.run = .running) :
    s.sameRecord t ∨
      (s.mem.read s.pc.toNat = 0x01#8 ∧ t = s.halt) ∨
      (t.run = .halted ∧ t.pc = s.pc ∧ t.recordExplained ∧
        t.faultCause ∈ [FaultCause.illegalInstruction, .outOfBounds, .invalidRegister]) := by
  cases h with
  | idle hhalted => rw [hrun] at hhalted; cases hhalted
  | illegal _ hnone => exact .inr (.inr ⟨rfl, rfl, ⟨rfl, hnone⟩, by simp⟩)
  | fetchPastTop => exact .inr (.inr ⟨rfl, rfl, .inr rfl, by simp⟩)
  | @runs i _ _ hfetch hends =>
    cases hends with
    | moves p hu => exact .inl ⟨hu.keeps_run, hu.keeps_faultCause, hu.keeps_faultInfo⟩
    | halts hi => subst hi; exact .inr (.inl ⟨hfetch.opcode, rfl⟩)
    | badRegister ho hge =>
      have hinfo := (hfetch.registerOperand ho).imp (congrArg fun b : Byte => (b.toNat : Int))
        (congrArg fun b : Byte => (b.toNat : Int))
      exact .inr (.inr ⟨rfl, rfl, ⟨Int.ofNat_le.mpr hge, hinfo⟩, by simp⟩)
    | belowZero => exact .inr (.inr ⟨rfl, rfl, .inl rfl, by simp⟩)
    | stackTop hu => exact .inr (.inr ⟨rfl, hu.keeps_pc, .inr rfl, by simp⟩)
    | pastTop hu hgt =>
      have htop : (s.pc.toNat : Int) + i.length = 256 := by have := hfetch.fits; omega
      exact .inr (.inr ⟨rfl, hu.keeps_pc, .inr htop, by simp⟩)

end StepEnds

end Sys2Proof.Machine
end

section
/-! ### The invariant of 10_state.md R22 -/

namespace Sys2Proof.Machine

/-- The comparison of two bytes sets exactly one flag (41_alu.md R82). -/
theorem oneFlagSet_of_compareFlags {s : State} {v w : Byte} (h : s.flags = compareFlags v w) : s.oneFlagSet := by
  unfold State.oneFlagSet
  rw [h]
  rcases Nat.lt_trichotomy v.toNat w.toNat with hlt | heq | hgt
  · simp [compareFlags, hlt, hlt.ne, hlt.le]
  · simp [compareFlags, heq]
  · simp [compareFlags, hgt, hgt.ne', hgt.le]

theorem State.oneFlagSet.flagsExclusive {s : State} (h : s.oneFlagSet) : s.flagsExclusive := by
  have hbits : ∀ e l g : Bool, [e, l, g].count true = 1 →
      ¬(e = true ∧ l = true) ∧ ¬(e = true ∧ g = true) ∧ ¬(l = true ∧ g = true) := by decide
  exact hbits _ _ _ h

/-- At most one flag stays set: a step keeps the flags or ends with those of a comparison. -/
theorem step_keeps_flagsExclusive {s t : State} (hs : s.flagsExclusive) (h : step s = .next t) : t.flagsExclusive := by
  rcases (step_ends h).flags_cases with heq | ⟨-, v, w, hcmp⟩
  · unfold State.flagsExclusive; rwa [heq]
  · exact (oneFlagSet_of_compareFlags hcmp).flagsExclusive

theorem step_keeps_recordExplained {s t : State} (hrec : s.recordExplained) (hhalt : s.haltExplained)
    (h : step s = .next t) : t.recordExplained ∧ t.haltExplained := by
  cases hrun : s.run with
  | halted =>
    rw [step_halted hrun] at h
    cases h
    exact ⟨hrec, hhalt⟩
  | running =>
    have hcause : s.faultCause = .none := by simpa only [State.haltExplained, hrun] using hhalt
    have hinfo : s.faultInfo = 0 := by simpa only [State.recordExplained, hcause] using hrec
    rcases (step_ends h).record_cases hrun with ⟨htrun, htcause, htinfo⟩ | ⟨hop, rfl⟩ | ⟨htrun, -, htrec, htcause⟩
    · simp [State.recordExplained, State.haltExplained, htrun, htcause, htinfo, hrun, hcause, hinfo]
    · simp [State.recordExplained, State.haltExplained, hcause, hinfo, hop]
    · refine ⟨htrec, ?_⟩
      simp only [State.haltExplained, htrun]
      intro hnone
      simp [hnone] at htcause

/-- Settles O40: each of the four parts of the invariant is kept, by the inversion of the step. -/
theorem stepKeepsTheInvariant : Obligations.StepKeepsTheInvariant := by
  rintro s t ⟨hwf, hflags, hrec, hhalt⟩ h
  exact ⟨(step_ends h).keeps_wf hwf, step_keeps_flagsExclusive hflags h, step_keeps_recordExplained hrec hhalt h⟩

/-- Settles O41: only a CMP changes the flags, and it sets exactly one. -/
theorem stepKeepsExactlyOneFlagSet : Obligations.StepKeepsExactlyOneFlagSet := by
  intro s t hs h
  rcases (step_ends h).flags_cases with heq | ⟨-, v, w, hcmp⟩
  · unfold State.oneFlagSet; rwa [heq]
  · exact oneFlagSet_of_compareFlags hcmp

/-- The load port changes memory alone, and keeps its canonical form (70_reset_and_hazards.md R131, R132). -/
theorem afterReset_eq (writes : List (Byte × Byte)) :
    ∃ m : Memory, m.wf ∧ State.afterReset writes = { State.reset with mem := m } := by
  refine List.foldlRecOn writes State.loadCell
    (motive := fun s => ∃ m : Memory, m.wf ∧ s = { State.reset with mem := m }) ⟨_, State.reset_mem_wf, rfl⟩ ?_
  rintro s ⟨m, hm, rfl⟩ ⟨a, v⟩ -
  exact ⟨m.write a.toNat v, Memory.wf_write m _ v hm a.isLt, rfl⟩

theorem boot_meets_inv {image : List Byte} {s : State} (h : State.boot image = some s) : s.Inv := by
  obtain ⟨m, hm, heq⟩ := afterReset_eq (imageWrites 0 image)
  simp only [State.boot, heq, Option.ite_none_right_eq_some, Option.some.injEq] at h
  obtain ⟨-, rfl⟩ := h
  exact ⟨hm, by simp [State.flagsExclusive, State.reset], rfl, rfl⟩

/-- A run of `k + 1` steps is a step and a run of `k` steps. -/
theorem core_run_succ {k : Nat} {s t : State} (h : core.run (k + 1) s = .next t) :
    ∃ u : State, step s = .next u ∧ core.run k u = .next t := by
  cases hs : step s with
  | next u => exact ⟨u, rfl, by simpa only [Host.Core.run, Host.Check.core_step, hs] using h⟩
  | fault r => cases r
  | refused r => simp [Host.Core.run, Host.Check.core_step, hs] at h

/-- What every step keeps holds at the end of every run. -/
theorem run_keeps {P : State → Prop} (hstep : ∀ s t, P s → step s = .next t → P t) {k : Nat} {s t : State} (hs : P s)
    (h : core.run k s = .next t) : P t := by
  induction k generalizing s with
  | zero => cases h; exact hs
  | succ k ih =>
    obtain ⟨u, hu, hrun⟩ := core_run_succ h
    exact ih (hstep s u hs hu) hrun

/-- Settles O42: the booted state meets the invariant, and every step keeps it (O40). -/
theorem everyRunFromEveryImageMeetsTheInvariant : Obligations.EveryRunFromEveryImageMeetsTheInvariant :=
  fun _ _ _ _ hboot hrun => run_keeps stepKeepsTheInvariant (boot_meets_inv hboot) hrun

end Sys2Proof.Machine
end

section
/-! ### Whole-machine rules: the end of a run, the flags, the output, the output signals -/

namespace Sys2Proof.Machine

/-- Settles O32: the idle step. -/
theorem haltedMachineKeepsItsState : Obligations.HaltedMachineKeepsItsState :=
  fun _ => step_halted

/-- Settles O34: the three ways the record can come out of a step of a RUNNING machine. -/
theorem runEndsByHltOrByARaiseAtTheInstruction : Obligations.RunEndsByHltOrByARaiseAtTheInstruction := by
  intro s t hrun hcause h
  rcases (step_ends h).record_cases hrun with ⟨htrun, htcause, htinfo⟩ | ⟨hop, rfl⟩ | ⟨htrun, htpc, -, htcause⟩
  · exact ⟨fun hhalted => by simp [htrun, hrun] at hhalted, fun _ => ⟨htcause.trans hcause, htinfo⟩⟩
  · exact ⟨fun _ => ⟨rfl, .inl ⟨hop, hcause, rfl⟩⟩, fun hrunning => by simp at hrunning⟩
  · exact ⟨fun _ => ⟨htpc, .inr htcause⟩, fun hrunning => by simp [htrun] at hrunning⟩

/-- Settles O35: flags change by a comparison only, and its opcode is the byte at `pc`. -/
theorem onlyCmpChangesFlags : Obligations.OnlyCmpChangesFlags :=
  fun _ _ h hne => ((step_ends h).flags_cases.resolve_left hne).1

/-- Settles O37, which is what the inversion of the step says of the output. -/
theorem onlyPrnAppendsToTheOutput : Obligations.OnlyPrnAppendsToTheOutput :=
  fun _ _ h => (step_ends h).out_cases

/-- The output grows by the value on `out_valid` and `out_data` (10_state.md R23). -/
theorem step_out_eq_outPort {s t : State} (h : step s = .next t) : t.out = s.out ++ s.outPort.toList := by
  have hport : s.outPort = t.out[s.out.length]? := by simp only [State.outPort, h]
  rw [hport]
  rcases (step_ends h).out_cases with heq | ⟨-, -, r, -, happ⟩
  · simp [heq]
  · simp [happ]

/-- Under the invariant `fault_info` is -1, 256 or a byte (60_exceptions.md R111). -/
theorem State.recordExplained.faultInfo_mem {s : State} (h : s.recordExplained) :
    -1 ≤ s.faultInfo ∧ s.faultInfo ≤ 256 := by
  unfold State.recordExplained at h
  split at h
  · omega
  · omega
  · omega
  · omega
  · exact h.elim

/-- The nine bits of `fault_info` hold every number from -1 to 256 apart (10_state.md R23). -/
theorem faultInfoPort_eq_iff {s : State} (h : s.recordExplained) {n : Int} (hn : -1 ≤ n ∧ n ≤ 256)
    {bits : BitVec 9} (hbits : bits = BitVec.ofInt 9 n) : s.faultInfoPort = bits ↔ s.faultInfo = n := by
  obtain ⟨hlo, hhi⟩ := h.faultInfo_mem
  rw [hbits, State.faultInfoPort, ← BitVec.toNat_inj, BitVec.toNat_ofInt, BitVec.toNat_ofInt]
  omega

theorem faultInfoPort_toNat {s : State} (h : s.recordExplained) (hpos : 0 ≤ s.faultInfo) :
    (s.faultInfoPort.toNat : Int) = s.faultInfo := by
  obtain ⟨-, hhi⟩ := h.faultInfo_mem
  rw [State.faultInfoPort, BitVec.toNat_ofInt]
  omega

/-- No two causes have the same number (60_exceptions.md R111). -/
theorem FaultCause.number_inj {c d : FaultCause} : c.number = d.number ↔ c = d := by
  cases c <;> cases d <;> decide

/-- Settles O45: the output grows by the port's value, and -1..256 has no two numbers with the same nine bits. -/
theorem portsReportTheStateAndTheEmittedValue : Obligations.PortsReportTheStateAndTheEmittedValue := by
  rintro s ⟨-, -, hrec, -⟩
  exact ⟨fun t h => step_out_eq_outPort h, decide_eq_true_iff,
    faultInfoPort_eq_iff hrec (n := -1) (by decide) rfl, faultInfoPort_eq_iff hrec (n := 256) (by decide) rfl,
    faultInfoPort_toNat hrec,
    FaultCause.number_inj (d := .none), FaultCause.number_inj (d := .illegalInstruction),
    FaultCause.number_inj (d := .outOfBounds), FaultCause.number_inj (d := .invalidRegister), rfl⟩

end Sys2Proof.Machine
end

section
/-! ### Two machines side by side: what no instruction reads cannot influence one -/

namespace Sys2Proof.Machine

/-- The canonical form lists exactly the cells that hold another value than an unlisted address reads as. -/
theorem Memory.mem_iff_read {m : Memory} (hm : m.wf) (c : Host.Cell) :
    c ∈ m ↔ c.1 < Config.memorySize ∧ c.2 ≠ Config.initialCell ∧ m.read c.1 = c.2 := by
  obtain ⟨hcells, hrise⟩ := hm
  constructor
  · intro hc
    refine ⟨(hcells c hc).1, (hcells c hc).2, ?_⟩
    clear hcells
    induction m with
    | nil => cases hc
    | cons d m ih =>
      obtain ⟨hd, hrise⟩ := List.pairwise_cons.mp hrise
      rcases List.mem_cons.mp hc with rfl | hc
      · exact if_pos rfl
      · rw [Memory.read, if_neg (hd c hc).ne, ih hrise hc]
  · rintro ⟨-, hne, hread⟩
    clear hcells hrise
    induction m with
    | nil => exact absurd hread.symm hne
    | cons d m ih =>
      rw [Memory.read] at hread
      split at hread
      · next hd => exact List.mem_cons.mpr (.inl (Prod.ext hd.symm hread.symm))
      · exact List.mem_cons.mpr (.inr (ih hread))

/-- Two memories in canonical form with the same cells are the same list. -/
theorem Memory.eq_of_read_eq {m n : Memory} (hm : m.wf) (hn : n.wf) (h : ∀ a, a < 256 → m.read a = n.read a) :
    m = n := by
  have hirrefl : Std.Irrefl fun c d : Host.Cell => c.1 < d.1 := ⟨fun c => Nat.lt_irrefl c.1⟩
  have hantisymm : Std.Antisymm fun c d : Host.Cell => c.1 < d.1 :=
    ⟨fun c d hcd hdc => absurd hdc (Nat.lt_asymm hcd)⟩
  refine hm.2.eq_of_mem_iff hn.2 fun c => ?_
  rw [Memory.mem_iff_read hm, Memory.mem_iff_read hn]
  exact and_congr_right fun hc => by rw [h c.1 hc]

/-- Machines `s` and `t`, on their way through one instruction from `s₀` and `t₀`: they agree on `pc`, E, `run`, memory
and the registers in `vis`, have emitted the same values, and have both kept or both written the same flags and record. -/
structure Alike (vis : Reg → Prop) (s₀ t₀ s t : State) : Prop where
  reg : ∀ q, vis q → t.reg q = s.reg q
  pc : t.pc = s.pc
  equal : t.flags.equal = s.flags.equal
  run : t.run = s.run
  mem : t.mem = s.mem
  flags : t.flags = s.flags ∨ (s.flags = s₀.flags ∧ t.flags = t₀.flags)
  out : ∃ emitted, s.out = s₀.out ++ emitted ∧ t.out = t₀.out ++ emitted
  record : (s.faultCause = s₀.faultCause ∧ s.faultInfo = s₀.faultInfo ∧ t.faultCause = t₀.faultCause ∧
      t.faultInfo = t₀.faultInfo) ∨ (s.faultCause = t.faultCause ∧ s.faultInfo = t.faultInfo)

/-- Both answers are next states, and these are alike. -/
def AlikeResults (vis : Reg → Prop) (s₀ t₀ : State) (x y : Result) : Prop :=
  ∃ s t, x = .next s ∧ y = .next t ∧ Alike vis s₀ t₀ s t

namespace Alike

variable {vis : Reg → Prop} {s₀ t₀ s t : State}

theorem start (hreg : ∀ q, vis q → t.reg q = s.reg q) (hpc : t.pc = s.pc) (hequal : t.flags.equal = s.flags.equal)
    (hrun : t.run = s.run) (hmem : t.mem = s.mem) : Alike vis s t s t :=
  ⟨hreg, hpc, hequal, hrun, hmem, .inr ⟨rfl, rfl⟩, ⟨[], by simp⟩, .inl ⟨rfl, rfl, rfl, rfl⟩⟩

theorem refl (s : State) : Alike vis s s s s := start (fun _ _ => rfl) rfl rfl rfl rfl

theorem sp (h : Alike vis s₀ t₀ s t) (hv : vis spReg) : t.sp = s.sp := h.reg spReg hv

theorem setReg (h : Alike vis s₀ t₀ s t) (r : Reg) (v : Byte) : Alike vis s₀ t₀ (s.setReg r v) (t.setReg r v) :=
  { h with
    reg := fun q hq => by
      rw [State.reg_setReg, State.reg_setReg, h.reg q hq] }

theorem setPc (h : Alike vis s₀ t₀ s t) (p : Byte) : Alike vis s₀ t₀ (s.setPc p) (t.setPc p) :=
  { h with pc := rfl }

theorem setFlags (h : Alike vis s₀ t₀ s t) (f : Flags) : Alike vis s₀ t₀ (s.setFlags f) (t.setFlags f) :=
  { h with equal := rfl, flags := .inl rfl }

theorem setCell (h : Alike vis s₀ t₀ s t) (a : Nat) (v : Byte) : Alike vis s₀ t₀ (s.setCell a v) (t.setCell a v) :=
  { h with mem := congrArg (·.write a v) h.mem }

theorem output (h : Alike vis s₀ t₀ s t) (v : Byte) : Alike vis s₀ t₀ (s.output v) (t.output v) :=
  { h with
    out := by
      obtain ⟨emitted, hs, ht⟩ := h.out
      exact ⟨emitted ++ [v], by simp [hs], by simp [ht]⟩ }

theorem halt (h : Alike vis s₀ t₀ s t) : Alike vis s₀ t₀ s.halt t.halt :=
  { h with run := rfl }

theorem raise (h : Alike vis s₀ t₀ s t) (c : FaultCause) (n : Int) : Alike vis s₀ t₀ (s.raise c n) (t.raise c n) :=
  { h with run := rfl, record := .inr ⟨rfl, rfl⟩ }

theorem next (h : Alike vis s₀ t₀ s t) : AlikeResults vis s₀ t₀ (.next s) (.next t) := ⟨s, t, rfl, rfl, h⟩

/-! The operations that can raise: alike machines with the same argument go on alike or raise alike. -/

theorem inRange (h : Alike vis s₀ t₀ s t) {n : Int} {k k' : Byte → Result}
    (hk : ∀ b, AlikeResults vis s₀ t₀ (k b) (k' b)) :
    AlikeResults vis s₀ t₀ (inRange n s k) (inRange n t k') := by
  unfold Machine.inRange
  split
  · exact hk _
  · exact (h.raise _ _).next

theorem withReg (h : Alike vis s₀ t₀ s t) {a : Byte} {k k' : Reg → Result}
    (hk : ∀ r : Reg, a.toNat = r.val → AlikeResults vis s₀ t₀ (k r) (k' r)) :
    AlikeResults vis s₀ t₀ (withReg a s k) (withReg a t k') := by
  rcases register_cases a with ⟨r, hr⟩ | hge
  · rw [withReg_of_eq hr, withReg_of_eq hr]
    exact hk r hr
  · rw [withReg_of_ge hge, withReg_of_ge hge]
    exact (h.raise _ _).next

theorem advance (h : Alike vis s₀ t₀ s t) (w : Nat) : AlikeResults vis s₀ t₀ (advance w s) (advance w t) := by
  unfold Machine.advance
  rw [h.pc]
  exact h.inRange fun p => (h.setPc p).next

theorem decrementSp (h : Alike vis s₀ t₀ s t) (hv : vis spReg) {k k' : Byte → Result}
    (hk : ∀ b, AlikeResults vis s₀ t₀ (k b) (k' b)) :
    AlikeResults vis s₀ t₀ (decrementSp s k) (decrementSp t k') := by
  unfold Machine.decrementSp
  rw [h.sp hv]
  exact h.inRange hk

theorem incrementSp (h : Alike vis s₀ t₀ s t) (hv : vis spReg) {k k' : Byte → Result}
    (hk : ∀ b, AlikeResults vis s₀ t₀ (k b) (k' b)) :
    AlikeResults vis s₀ t₀ (incrementSp s k) (incrementSp t k') := by
  unfold Machine.incrementSp
  rw [h.sp hv]
  exact h.inRange hk

theorem returnAddress (h : Alike vis s₀ t₀ s t) {k k' : Byte → Result}
    (hk : ∀ b, AlikeResults vis s₀ t₀ (k b) (k' b)) :
    AlikeResults vis s₀ t₀ (returnAddress s k) (returnAddress t k') := by
  unfold Machine.returnAddress
  rw [h.pc]
  exact h.inRange hk

theorem alu (h : Alike vis s₀ t₀ s t) (op : AluOp) {a b : Reg} (ha : vis a) (hb : vis b) :
    Alike vis s₀ t₀ (s.alu op a b) (t.alu op a b) := by
  cases op with
  | add => simpa only [State.alu, h.reg a ha, h.reg b hb] using h.setReg a _
  | mul => simpa only [State.alu, h.reg a ha, h.reg b hb] using h.setReg a _
  | cmp => simpa only [State.alu, h.reg a ha, h.reg b hb] using h.setFlags _

theorem aluInstruction (h : Alike vis s₀ t₀ s t) (op : AluOp) {a b : Byte}
    (ha : ∀ r : Reg, a.toNat = r.val → vis r) (hb : ∀ r : Reg, b.toNat = r.val → vis r) :
    AlikeResults vis s₀ t₀ (aluInstruction op a b s) (aluInstruction op a b t) :=
  h.withReg fun ra hra => h.withReg fun rb hrb => (h.alu op (ha ra hra) (hb rb hrb)).advance 3

theorem execPush (h : Alike vis s₀ t₀ s t) {a : Byte} (hsp : vis spReg) (ha : ∀ r : Reg, a.toNat = r.val → vis r) :
    AlikeResults vis s₀ t₀ (execPush a s) (execPush a t) := by
  refine h.withReg fun r hr => h.decrementSp hsp fun p => ?_
  have hmoved := h.setReg spReg p
  rw [memWrite_of_byte, memWrite_of_byte, hmoved.reg r (ha r hr)]
  exact (hmoved.setCell _ _).advance 2

theorem execPop (h : Alike vis s₀ t₀ s t) {a : Byte} (hsp : vis spReg) :
    AlikeResults vis s₀ t₀ (execPop a s) (execPop a t) := by
  refine h.withReg fun r _ => ?_
  rw [memRead_of_byte, memRead_of_byte, h.sp hsp, h.mem]
  have hloaded := h.setReg r (s.mem.read s.sp.toNat)
  exact hloaded.incrementSp hsp fun p => (hloaded.setReg spReg p).advance 2

theorem execCall (h : Alike vis s₀ t₀ s t) {a : Byte} (hsp : vis spReg) (ha : ∀ r : Reg, a.toNat = r.val → vis r) :
    AlikeResults vis s₀ t₀ (execCall a s) (execCall a t) := by
  refine h.withReg fun r hr => h.returnAddress fun ret => h.decrementSp hsp fun p => ?_
  have hstored := (h.setReg spReg p).setCell p.toNat ret
  rw [memWrite_of_byte, memWrite_of_byte, hstored.reg r (ha r hr)]
  exact (hstored.setPc _).next

theorem execRet (h : Alike vis s₀ t₀ s t) (hsp : vis spReg) : AlikeResults vis s₀ t₀ (execRet s) (execRet t) := by
  unfold Machine.execRet
  rw [memRead_of_byte, memRead_of_byte, h.sp hsp, h.mem]
  exact h.incrementSp hsp fun p => ((h.setReg spReg p).setPc _).next

/-- A jump to a visible register. -/
theorem jump (h : Alike vis s₀ t₀ s t) {r : Reg} (hr : vis r) :
    AlikeResults vis s₀ t₀ (.next (s.setPc (s.reg r))) (.next (t.setPc (t.reg r))) := by
  rw [h.reg r hr]
  exact (h.setPc _).next

end Alike

/-- The registers outside `vis` do not influence an instruction that reads none of them, and L, G, the output stream and
the fault record influence none (10_state.md R11, R16, R18, R19). -/
theorem exec_alike {vis : Reg → Prop} {s₀ t₀ s t : State} (h : Alike vis s₀ t₀ s t) (i : Instr)
    (hread : ∀ r : Reg, r.val ∈ i.readsRegisters s.flags.equal → vis r) :
    AlikeResults vis s₀ t₀ (exec i s) (exec i t) := by
  have hsp (h7 : 7 ∈ i.readsRegisters s.flags.equal) : vis spReg := hread spReg h7
  have hop {a : Byte} (ha : a.toNat ∈ i.readsRegisters s.flags.equal) (r : Reg) (hr : a.toNat = r.val) : vis r :=
    hread r (hr ▸ ha)
  cases i with
  | hlt => exact h.halt.next
  | ldi a imm8 => exact h.withReg fun r _ => (h.setReg r imm8).advance 3
  | prn a =>
    refine h.withReg fun r hr => ?_
    rw [h.reg r (hop List.mem_cons_self r hr)]
    exact (h.output _).advance 2
  | mul a b => exact h.aluInstruction .mul (hop List.mem_cons_self) (hop (List.mem_cons_of_mem _ List.mem_cons_self))
  | add a b => exact h.aluInstruction .add (hop List.mem_cons_self) (hop (List.mem_cons_of_mem _ List.mem_cons_self))
  | cmp a b => exact h.aluInstruction .cmp (hop List.mem_cons_self) (hop (List.mem_cons_of_mem _ List.mem_cons_self))
  | push a => exact h.execPush (hsp List.mem_cons_self) (hop (List.mem_cons_of_mem _ List.mem_cons_self))
  | pop a => exact h.execPop (hsp List.mem_cons_self)
  | call a => exact h.execCall (hsp List.mem_cons_self) (hop (List.mem_cons_of_mem _ List.mem_cons_self))
  | ret => exact h.execRet (hsp List.mem_cons_self)
  | jmp a => exact h.withReg fun r hr => h.jump (hop List.mem_cons_self r hr)
  | jeq a =>
    refine h.withReg fun r hr => ?_
    rw [h.equal]
    split
    · next he => exact h.jump (hop (by simp [Instr.readsRegisters, he]) r hr)
    · exact h.advance 2
  | jne a =>
    refine h.withReg fun r hr => ?_
    rw [h.equal]
    split
    · exact h.advance 2
    · next he => exact h.jump (hop (by simp [Instr.readsRegisters, he]) r hr)

theorem State.fetchDecode_congr {s t : State} (hpc : t.pc = s.pc) (hmem : t.mem = s.mem) :
    t.fetchDecode = s.fetchDecode := by
  simp only [State.fetchDecode, State.fetchBytes, hpc, hmem]

theorem step_alike {s₀ t₀ s t : State} (h : Alike (fun _ => True) s₀ t₀ s t) :
    AlikeResults (fun _ => True) s₀ t₀ (step s) (step t) := by
  cases hrun : s.run with
  | halted =>
    rw [step_halted hrun, step_halted (h.run.trans hrun)]
    exact h.next
  | running =>
    have hfetch := State.fetchDecode_congr h.pc h.mem
    cases hf : s.fetchDecode with
    | ok i =>
      rw [step_of_ok hrun hf, step_of_ok (h.run.trans hrun) (hfetch.trans hf)]
      exact exec_alike h i fun _ _ => trivial
    | error e =>
      rw [step_of_error hrun hf, step_of_error (h.run.trans hrun) (hfetch.trans hf)]
      exact (h.raise _ _).next

/-- Settles O46: canonical memories that agree on every cell are equal, so the two machines start alike. -/
theorem unreadStateNeverInfluencesAStep : Obligations.UnreadStateNeverInfluencesAStep := by
  rintro s t s' hs ht ⟨hreg, hpc, hequal, hrun, hread⟩ hstep
  have hmem : t.mem = s.mem := Memory.eq_of_read_eq ht hs fun a _ => hread a
  obtain ⟨u, t', hu, ht', h⟩ := step_alike (Alike.start (fun q _ => hreg q) hpc hequal hrun hmem)
  cases hstep.symm.trans hu
  exact ⟨t', ht', ⟨fun q => h.reg q trivial, h.pc, h.equal, h.run, fun a => by rw [h.mem]⟩, h.out, h.record⟩

/-- Settles O33, by the two-machine rules with the same machine twice: they give both a next state. -/
theorem everyInstructionAndStepAnswersNext : Obligations.EveryInstructionAndStepAnswersNext := by
  refine ⟨fun i s => ?_, fun s => ?_⟩
  · obtain ⟨t, -, ht, -⟩ := exec_alike (Alike.refl (vis := fun _ => True) s) i fun _ _ => trivial
    exact ⟨t, ht⟩
  · obtain ⟨t, -, ht, -⟩ := step_alike (Alike.refl s)
    exact ⟨t, ht⟩

/-- Settles O38: the write set by the inversion of `exec`, the read set by two machines that differ in one register. -/
theorem registerReadAndWriteSets : Obligations.RegisterReadAndWriteSets := by
  intro i s t h
  refine ⟨fun r hr => ?_, fun r v hr => ?_⟩
  · obtain ⟨u, hu, hreg, -⟩ := (exec_ends h).effect
    rw [hreg, hu.keeps_reg hr]
  · have hstart : Alike (· ≠ r) s (s.setReg r v) s (s.setReg r v) :=
      .start (fun q hq => State.reg_setReg_other s r q v hq) rfl rfl rfl rfl
    obtain ⟨t', u, ht', hu, hend⟩ := exec_alike hstart i fun q hq e => hr (e ▸ hq)
    cases h.symm.trans ht'
    refine ⟨u, hu, hend.reg, hend.pc, ?_, hend.run, ?_, ?_, ?_, hend.mem⟩
    · rcases hend.flags with hsame | ⟨hs, hu⟩
      · exact hsame
      · rw [hs, hu, State.setReg_flags]
    · rcases hend.record with ⟨hs, -, hu, -⟩ | ⟨hsame, -⟩
      · rw [hs, hu, State.setReg_faultCause]
      · exact hsame.symm
    · rcases hend.record with ⟨-, hs, -, hu⟩ | ⟨-, hsame⟩
      · rw [hs, hu, State.setReg_faultInfo]
      · exact hsame.symm
    · obtain ⟨emitted, hs, hu⟩ := hend.out
      rw [hs, hu, State.setReg_out]

end Sys2Proof.Machine
end

section
/-! ### Advancing instructions -/

namespace Sys2Proof.Machine

theorem State.alu_setPc (op : AluOp) (a b : Reg) (s : State) (p : Byte) :
    (s.setPc p).alu op a b = (s.alu op a b).setPc p := by
  cases op <;> rfl

/-- The answers `f p` of an instruction that stands at `p`: for every `p` the same effect and then the advance by `w`, or
for every `p` the same raise. -/
def AdvancesAnywhere (w : Nat) (f : Byte → Result) : Prop :=
  (∃ u : State, ∀ p, f p = advance w (u.setPc p)) ∨
    ∃ (u : State) (c : FaultCause) (n : Int), ∀ p, f p = .next ((u.setPc p).raise c n)

namespace AdvancesAnywhere

variable {w : Nat} {u : State}

theorem ofAdvance : AdvancesAnywhere w fun p => advance w (u.setPc p) := .inl ⟨u, fun _ => rfl⟩

theorem inRange {n : Int} {k : Byte → Byte → Result} (hk : ∀ b, AdvancesAnywhere w fun p => k p b) :
    AdvancesAnywhere w fun p => inRange n (u.setPc p) (k p) := by
  unfold Machine.inRange
  split
  · exact hk _
  · exact .inr ⟨u, _, _, fun _ => rfl⟩

theorem withReg {a : Byte} {k : Byte → Reg → Result} (hk : ∀ r, AdvancesAnywhere w fun p => k p r) :
    AdvancesAnywhere w fun p => withReg a (u.setPc p) (k p) := by
  unfold Machine.withReg
  split
  · exact hk _
  · exact .inr ⟨u, _, _, fun _ => rfl⟩

theorem aluInstruction (op : AluOp) (a b : Byte) : AdvancesAnywhere 3 fun p => aluInstruction op a b (u.setPc p) :=
  withReg fun ra => withReg fun rb => by
    simp only [State.alu_setPc]
    exact ofAdvance

theorem push (a : Byte) : AdvancesAnywhere 2 fun p => execPush a (u.setPc p) :=
  withReg fun r => inRange (n := u.sp.toNat - 1) fun nsp =>
    inRange (n := nsp.toNat) (u := u.setReg spReg nsp) fun b =>
      ofAdvance (u := (u.setReg spReg nsp).setCell b.toNat ((u.setReg spReg nsp).reg r))

theorem pop (a : Byte) : AdvancesAnywhere 2 fun p => execPop a (u.setPc p) :=
  withReg fun r => inRange (n := u.sp.toNat) fun b =>
    inRange (n := (u.setReg r (u.mem.read b.toNat)).sp.toNat + 1) (u := u.setReg r (u.mem.read b.toNat)) fun nsp =>
      ofAdvance (u := (u.setReg r (u.mem.read b.toNat)).setReg spReg nsp)

end AdvancesAnywhere

/-- What an advancing instruction does before its advance does not depend on where it stands (10_state.md R15). -/
theorem exec_advancesAnywhere {i : Instr} {s : State} (h : i.advances s.flags.equal = true) :
    AdvancesAnywhere i.length fun p => exec i (s.setPc p) := by
  cases i with
  | ldi a imm8 => exact .withReg fun r => .ofAdvance (u := s.setReg r imm8)
  | prn a => exact .withReg fun r => .ofAdvance (u := s.output (s.reg r))
  | mul a b => exact .aluInstruction .mul a b
  | add a b => exact .aluInstruction .add a b
  | cmp a b => exact .aluInstruction .cmp a b
  | push a => exact .push a
  | pop a => exact .pop a
  | jeq a =>
    have he : s.flags.equal = false := by simpa [Instr.advances] using h
    simp only [exec, execJeq, State.setPc_flags, he, Bool.false_eq_true, if_false]
    exact .withReg fun _ => .ofAdvance (u := s)
  | jne a =>
    have he : s.flags.equal = true := h
    simp only [exec, execJne, State.setPc_flags, he, if_true]
    exact .withReg fun _ => .ofAdvance (u := s)
  | hlt | call | ret | jmp => cases h

/-- An advance as far as it fits. -/
theorem advance_of_toNat_eq {w : Nat} {s : State} {p : Byte} (h : p.toNat = s.pc.toNat + w) :
    advance w s = .next (s.setPc p) := by
  rw [advance_of_le (by omega), ← h, BitVec.ofNat_toNat, BitVec.setWidth_eq]

/-- Settles O13: an instruction that completes at address 0 does not raise, so it is an effect `u` and then an advance
wherever it stands. -/
theorem advancePastTheTopCommitsTheResultThenRaises : Obligations.AdvancePastTheTopCommitsTheResultThenRaises := by
  intro i s t hadv hzero hlen
  rcases exec_advancesAnywhere hadv with ⟨u, hu⟩ | ⟨u, c, n, hraise⟩
  · have hexec : exec i s = advance i.length (u.setPc s.pc) := hu s.pc
    rcases advance_cases ((hu 0#8).symm.trans hzero) with ⟨q, -, rfl⟩ | ⟨-, rfl⟩
    · exact ⟨fun p hp => hexec.trans (advance_of_toNat_eq (s := u.setPc s.pc) hp),
        fun hgt => hexec.trans (advance_of_gt (s := u.setPc s.pc) hgt)⟩
    · exact absurd hlen i.length_pos.ne
  · cases hzero.symm.trans (hraise 0#8)
    exact absurd hlen i.length_pos.ne

end Sys2Proof.Machine
end

section
/-! ### Memory: the two primitives at integer addresses, which steps store, and fetching what was stored -/

namespace Sys2Proof.Machine

/-- The addresses 0..255 are the bytes (20_memory.md R30). -/
theorem exists_byte_toNat_eq {a : Nat} (h : a ≤ 255) : ∃ b : Byte, b.toNat = a :=
  ⟨BitVec.ofNatLT a (Nat.lt_succ_of_le h), rfl⟩

/-- Settles O5: the range check in front of a read. -/
theorem memReadGivesTheCellOrRaises : Obligations.MemReadGivesTheCellOrRaises := by
  intro s k
  refine ⟨fun a ha => inRange_of_not ha s _, fun a ha => ?_⟩
  obtain ⟨b, rfl⟩ := exists_byte_toNat_eq ha
  exact memRead_of_byte b s k

/-- Settles O6: the range check in front of `Memory.write`, which changes one cell and keeps the canonical form. -/
theorem memWriteChangesOneCellOrRaises : Obligations.MemWriteChangesOneCellOrRaises := by
  intro s v
  refine ⟨fun a k ha => inRange_of_not ha s _, fun a ha hwf => ?_⟩
  obtain ⟨b, rfl⟩ := exists_byte_toNat_eq ha
  exact ⟨s.mem.write b.toNat v, memWrite_of_byte b v s, Memory.read_write_same _ _ v hwf.2,
    fun c hc => Memory.read_write_other _ _ c v hc, Memory.wf_write _ _ v hwf b.isLt⟩

/-- Settles O7: the canonical form lists the same cells for both memories. -/
theorem memoriesWithEqualCellsAreEqual : Obligations.MemoriesWithEqualCellsAreEqual :=
  fun _ _ => Memory.eq_of_read_eq

/-- An effect on memory is one store by PUSH or CALL, to the cell below the stack pointer (20_memory.md R31). -/
theorem Effect.store_cases {s u : State} {i : Instr} (h : Effect s i u) :
    u.mem = s.mem ∨ ((i.opcode = 0x45#8 ∨ i.opcode = 0x50#8) ∧
      ∃ p v : Byte, p.toNat + 1 = s.sp.toNat ∧ u.mem = s.mem.write p.toNat v) := by
  cases h with
  | push _ hp => exact .inr ⟨.inl rfl, _, _, hp, rfl⟩
  | call _ hp => exact .inr ⟨.inr rfl, _, _, hp, rfl⟩
  | _ => exact .inl rfl

/-- The memory after a step is the one before it, or that of one store by the PUSH or CALL at `pc`. -/
theorem StepEnds.store_cases {s t : State} (h : StepEnds s t) :
    t.mem = s.mem ∨
      (s.run = .running ∧ (s.mem.read s.pc.toNat = 0x45#8 ∨ s.mem.read s.pc.toNat = 0x50#8) ∧
        ∃ p v : Byte, p.toNat + 1 = s.sp.toNat ∧ t.mem = s.mem.write p.toNat v) := by
  cases h with
  | runs hrun hfetch hends =>
    obtain ⟨u, hu, -, -, -, hmem⟩ := hends.effect
    rw [hmem, hfetch.opcode]
    exact hu.store_cases.imp id fun hstore => ⟨hrun, hstore⟩
  | idle | illegal | fetchPastTop => exact .inl rfl

/-- Settles O36: a cell that changed is the one the step stored to. -/
theorem onlyPushAndCallStoreAndOnlyOneCell : Obligations.OnlyPushAndCallStoreAndOnlyOneCell := by
  intro s t c h hne
  rcases (step_ends h).store_cases with hmem | ⟨hrun, hop, p, v, hp, hmem⟩
  · exact absurd (by rw [hmem]) hne
  · have hc : c = p.toNat := by
      by_contra hother
      exact hne (by rw [hmem, Memory.read_write_other _ _ _ _ hother])
    exact ⟨hrun, hop, hc ▸ hp⟩

/-- A PUSH that leaves the machine RUNNING has moved the stack pointer, stored there and advanced (42_stack.md R90). -/
theorem push_completed {s t : State} {a : Byte} {r : Reg} (ha : a.toNat = r.val) (h : exec (.push a) s = .next t)
    (hrun : t.run = .running) :
    ∃ p q : Byte, p.toNat + 1 = s.sp.toNat ∧ q.toNat = s.pc.toNat + 2 ∧
      t = ((s.setReg spReg p).setCell p.toNat ((s.setReg spReg p).reg r)).setPc q := by
  rw [show exec (.push a) s = execPush a s from rfl, execPush, withReg_of_eq ha] at h
  rcases decrementSp_cases h with ⟨p, hp, h⟩ | ⟨-, rfl⟩
  · rw [memWrite_of_byte] at h
    rcases advance_cases h with ⟨q, hq, rfl⟩ | ⟨-, rfl⟩
    · exact ⟨p, q, hp, hq, rfl⟩
    · cases hrun
  · cases hrun

/-- A CALL that leaves the machine RUNNING has moved the stack pointer, stored the return address there and jumped
(43_control_transfer.md R100). -/
theorem call_completed {s t : State} {a : Byte} {r : Reg} (ha : a.toNat = r.val) (h : exec (.call a) s = .next t)
    (hrun : t.run = .running) :
    ∃ p ret : Byte, p.toNat + 1 = s.sp.toNat ∧ ret.toNat = s.pc.toNat + 2 ∧
      t = ((s.setReg spReg p).setCell p.toNat ret).setPc ((s.setReg spReg p).reg r) := by
  rw [show exec (.call a) s = execCall a s from rfl, execCall, withReg_of_eq ha] at h
  rcases returnAddress_cases h with ⟨ret, hret, h⟩ | ⟨-, rfl⟩
  · rcases decrementSp_cases h with ⟨p, hp, h⟩ | ⟨-, rfl⟩
    · rw [memWrite_of_byte] at h
      cases h
      exact ⟨p, ret, hp, hret, rfl⟩
    · cases hrun
  · cases hrun

/-- A store is visible to the fetch of its cell (20_memory.md R42). -/
theorem fetchBytes_head_of_stored {s : State} {p q : Byte} (v : Byte) (hwf : s.mem.wf) (hq : q = p) :
    ((s.setCell p.toNat v).setPc q).fetchBytes.head? = some v := by
  subst hq
  rw [State.fetchBytes_eq, List.head?_cons]
  exact congrArg some (Memory.read_write_same _ _ v hwf.2)

/-- Settles O39: the stack pointer names the stored cell, so the fetch at `pc = x[7]` begins there. -/
theorem storedByteIsWhatTheNextFetchReads : Obligations.StoredByteIsWhatTheNextFetchReads := by
  intro a r s t ha _ hwf hrun hpc
  refine ⟨fun h => ?_, fun h => ?_⟩
  · obtain ⟨p, q, -, -, rfl⟩ := push_completed ha h hrun
    have hq : q = p := hpc.trans (State.sp_setReg_same s p)
    exact fetchBytes_head_of_stored (s := s.setReg spReg p) _ hwf hq
  · obtain ⟨p, ret, -, hret, rfl⟩ := call_completed ha h hrun
    have hjump : (s.setReg spReg p).reg r = p := hpc.trans (State.sp_setReg_same s p)
    have hvalue : ret = s.pc + 2#8 := by bv_omega
    exact hvalue ▸ fetchBytes_head_of_stored (s := s.setReg spReg p) ret hwf hjump

end Sys2Proof.Machine
end

section
/-! ### Encoding: the decoder on whole encodings and on short or illegal bytes, and the length (30_encoding.md) -/

namespace Sys2Proof

/-- A byte that is none of the 13 opcodes has no entry (30_encoding.md R54, R58). -/
theorem dispatch_eq_none_of_notMem {op : Byte}
    (h : op ∉ [0x01#8, 0x82#8, 0x47#8, 0xA2#8, 0xA0#8, 0x45#8, 0x46#8, 0x50#8, 0x11#8, 0xA7#8, 0x54#8, 0x55#8, 0x56#8]) :
    dispatch op = none := by
  have hkeys : op ∉ dispatchTable.map Prod.fst := h
  rw [dispatch, Option.map_eq_none_iff, List.find?_eq_none]
  exact fun row hrow heq => hkeys (eq_of_beq heq ▸ List.mem_map_of_mem hrow)

/-- With fewer operand bytes than the opcode's format has, the first absent one is missing (30_encoding.md R57). -/
theorem decode_missing {op : Byte} {h : Handler} {rest : List Byte} (hd : dispatch op = some h)
    (hlen : rest.length < h.operandCount) : decode (op :: rest) = .error (.missingByte (1 + rest.length)) := by
  cases h with
  | z => exact absurd hlen (Nat.not_lt_zero _)
  | r =>
    match rest, hlen with
    | [], _ => simp only [decode, hd, List.length_nil]
  | rr | ri =>
    match rest, hlen with
    | [], _ => simp only [decode, hd, List.length_nil]
    | [_], _ => simp only [decode, hd, List.length_singleton]

/-- No format has a third operand byte (30_encoding.md R50). -/
theorem Handler.operandCount_le (h : Handler) : h.operandCount ≤ 2 := by
  cases h <;> simp [Handler.operandCount]

theorem Instr.length_le (i : Instr) : i.length ≤ Config.longestInstruction := by
  cases i <;> simp [Instr.length, encode, Instr.operandBytes, Config.longestInstruction]

/-- Bits 7:6 of the opcode are the operand count (30_encoding.md R51). -/
theorem Instr.length_eq_bits (i : Instr) : i.length = 1 + (i.opcode.extractLsb 7 6).toNat := by
  cases i <;> simp [Instr.length, encode, Instr.operandBytes, Instr.opcode]

/-- Settles O1: the decoder takes exactly an encoding off the front, and takes every encoding. -/
theorem decodeExactlyInvertsEncode : Obligations.DecodeExactlyInvertsEncode := by
  refine fun bs rest i => ⟨eq_encode_append_of_decode, ?_⟩
  rintro rfl
  exact decode_append i rest

/-- Settles O2: each row is an encoding with bytes after it, and no other byte has an entry. -/
theorem opcodeMapIsTheThirteenRows : Obligations.OpcodeMapIsTheThirteenRows :=
  fun a b imm8 _ rest =>
    ⟨decode_append .hlt rest, decode_append (.ldi a imm8) rest, decode_append (.prn a) rest,
      decode_append (.mul a b) rest, decode_append (.add a b) rest, decode_append (.push a) rest,
      decode_append (.pop a) rest, decode_append (.call a) rest, decode_append .ret rest,
      decode_append (.cmp a b) rest, decode_append (.jmp a) rest, decode_append (.jeq a) rest,
      decode_append (.jne a) rest, fun hop => decode_illegal (dispatch_eq_none_of_notMem hop) rest⟩

/-- Settles O3: each word is an encoding with bytes after it. -/
theorem handWrittenWordsDecode : Obligations.HandWrittenWordsDecode :=
  ⟨decode_append (.ldi 0#8 8#8) _, decode_append (.prn 0#8) _, decode_append .hlt _, decode_append (.add 3#8 5#8) _,
    decode_append (.push 6#8) _, decode_append (.jeq 4#8) _, decode_append .ret _⟩

/-- Settles O4: the length is read off the opcode's two top bits; the two marks are read off each opcode. -/
theorem lengthFollowsFromTheOpcode : Obligations.LengthFollowsFromTheOpcode := by
  refine ⟨fun i j hop => ?_, fun i => ⟨i.length_eq_bits, ?_, ?_⟩⟩
  · exact (i.length_eq_bits.trans (hop ▸ rfl)).trans j.length_eq_bits.symm
  · cases i <;> simp [Instr.opcode]
  · cases i <;> simp [Instr.opcode]

end Sys2Proof

namespace Sys2Proof.Machine

/-! ### The fetch finds what stands in memory at `pc`, and misses what lies past the top -/

/-- Bytes that stand in memory at `a` are the front part of what is read there. -/
theorem Memory.readBytes_of_cells {m : Memory} {a n : Nat} {bs : List Byte} (hn : bs.length ≤ n)
    (ha : a + bs.length ≤ 256) (hcells : ∀ k b, bs[k]? = some b → m.read (a + k) = b) :
    ∃ rest, m.readBytes a n = bs ++ rest := by
  induction bs generalizing a n with
  | nil => exact ⟨_, rfl⟩
  | cons c bs ih =>
    rw [List.length_cons] at hn ha
    obtain ⟨n, rfl⟩ : ∃ k, n = k + 1 := ⟨n - 1, by omega⟩
    obtain ⟨rest, hrest⟩ := ih (a := a + 1) (n := n) (by omega) (by omega) fun k b hk => by
      rw [Nat.add_assoc, Nat.add_comm 1 k]
      exact hcells (k + 1) b hk
    have hfirst : m.read a = c := hcells 0 c rfl
    exact ⟨rest, by rw [Memory.readBytes_succ_of_lt (by omega), hfirst, hrest, List.cons_append]⟩

/-- Fetch and decode give the instruction whose bytes stand at `pc`: the converse of `fetches_of_fetchDecode`. -/
theorem State.Fetches.fetchDecode {s : State} {i : Instr} (h : s.Fetches i) : s.fetchDecode = .ok i := by
  obtain ⟨rest, hbytes⟩ : ∃ rest, s.fetchBytes = encode i ++ rest :=
    Memory.readBytes_of_cells i.length_le h.fits h.cells
  have hdecode : decode s.fetchBytes = .ok (i, rest) := (decodeExactlyInvertsEncode _ _ _).mpr hbytes
  simp only [State.fetchDecode, hdecode]

theorem State.Fetches.step_eq {s : State} {i : Instr} (h : s.Fetches i) (hrun : s.run = .running) :
    step s = exec i s :=
  step_of_ok hrun h.fetchDecode

/-- Settles O31: the fetch finds the instruction. -/
theorem stepRunsTheInstructionInMemory : Obligations.StepRunsTheInstructionInMemory :=
  fun _ _ hrun hfits hcells => State.Fetches.step_eq ⟨hfits, hcells⟩ hrun

/-- LDI leaves its immediate in the register, whether its advance completes or raises (40_halt_load_print.md R71). -/
theorem reg_of_exec_ldi {s t : State} {a imm8 : Byte} {r : Reg} (ha : a.toNat = r.val)
    (h : exec (.ldi a imm8) s = .next t) : t.reg r = imm8 := by
  rw [show exec (.ldi a imm8) s = execLdi a imm8 s from rfl, execLdi, withReg_of_eq ha] at h
  rcases advance_cases h with ⟨p, -, rfl⟩ | ⟨-, rfl⟩
  · exact State.reg_setReg_same s r imm8
  · exact State.reg_setReg_same s r imm8

/-- Settles O16: the fetch finds an LDI whose immediate is the third byte. -/
theorem ldiTakesOperandByteTwoAsItStands : Obligations.LdiTakesOperandByteTwoAsItStands := by
  intro s r hrun hfits hop hr
  have hfetch : s.Fetches (.ldi (s.mem.read (s.pc.toNat + 1)) (s.mem.read (s.pc.toNat + 2))) :=
    { fits := Nat.succ_le_succ hfits
      cells := fun
        | 0, _, hb => hop.trans (Option.some.inj hb)
        | 1, _, hb => Option.some.inj hb
        | 2, _, hb => Option.some.inj hb }
  obtain ⟨t, ht⟩ := everyInstructionAndStepAnswersNext.2 s
  exact ⟨t, ht, reg_of_exec_ldi hr (hfetch.step_eq hrun ▸ ht)⟩

/-- Settles O10: the bytes left in memory are too few for the format, and the first missing one is at address 256. -/
theorem operandFetchPastMemoryRaisesOutOfBounds : Obligations.OperandFetchPastMemoryRaisesOutOfBounds := by
  intro s h hrun hd hpast
  have hcount := h.operandCount_le
  have hlen : (s.mem.readBytes (s.pc.toNat + 1) 2).length = 255 - s.pc.toNat := by
    rw [Memory.length_readBytes (by omega)]; omega
  have hdecode : decode s.fetchBytes = .error (.missingByte (1 + (255 - s.pc.toNat))) := by
    rw [State.fetchBytes_eq, decode_missing hd (by omega), hlen]
  have hinfo : (s.pc.toNat : Int) + (1 + (255 - s.pc.toNat) : Nat) = 256 := by omega
  have hfetch : s.fetchDecode = .error (.outOfBounds, 256) := by
    simp only [State.fetchDecode, hdecode, hinfo]
  exact step_of_error hrun hfetch

/-! ### The register operand check comes first (30_encoding.md R52, 60_exceptions.md R114) -/

/-- The first operand byte, in operand order, that names no register. -/
abbrev firstBadRegister? (operands : List Byte) : Option Byte := operands.find? fun o => decide (7 < o.toNat)

theorem withReg_of_firstBad {a bad : Byte} (h : firstBadRegister? [a] = some bad) (s : State) (k : Reg → Result) :
    withReg a s k = .next (s.raise .invalidRegister bad.toNat) := by
  obtain rfl : bad = a := List.mem_singleton.mp (List.mem_of_find?_eq_some h)
  have hbad : 7 < bad.toNat := by simpa using List.find?_some h
  exact withReg_of_ge hbad s k

theorem withRegs_of_firstBad {a b bad : Byte} (h : firstBadRegister? [a, b] = some bad) (s : State)
    (k : Reg → Reg → Result) : withRegs a b s k = .next (s.raise .invalidRegister bad.toNat) := by
  rcases register_cases a with ⟨r, hr⟩ | (hbad : 7 < a.toNat)
  · have hgood : ¬ 7 < a.toNat := by have := r.val_lt; omega
    rw [firstBadRegister?, List.find?_cons_of_neg (by simpa using hgood)] at h
    rw [withRegs, withReg_of_eq hr]
    exact withReg_of_firstBad h s _
  · rw [firstBadRegister?, List.find?_cons_of_pos (by simpa using hbad)] at h
    obtain rfl : a = bad := Option.some.inj h
    exact withReg_of_ge hbad s _

/-- Every instruction begins with the check of its register operands. -/
theorem exec_of_firstBad {i : Instr} {bad : Byte} (h : firstBadRegister? i.registerOperands = some bad) (s : State) :
    exec i s = .next (s.raise .invalidRegister bad.toNat) := by
  cases i with
  | hlt | ret => cases h
  | ldi | prn | push | pop | call | jmp | jeq | jne => exact withReg_of_firstBad h s _
  | mul | add | cmp => exact withRegs_of_firstBad h s _

/-- Only a register operand above 7 ends an instruction with InvalidRegister. -/
theorem Ends.faultCause_ne_invalidRegister {s t : State} {i : Instr} (h : Ends s i t) (hwf : i.WellFormed)
    (hs : s.faultCause ≠ .invalidRegister) : t.faultCause ≠ .invalidRegister := by
  cases h with
  | moves _ hu => exact hu.keeps_faultCause ▸ hs
  | halts => exact hs
  | badRegister ho hge => exact absurd (hwf _ ho) (Nat.not_lt.mpr hge)
  | belowZero | stackTop | pastTop => exact FaultCause.noConfusion

/-- Settles O11: the check comes first, and nothing else raises InvalidRegister. -/
theorem registerOperandAboveSevenRaisesInvalidRegister : Obligations.RegisterOperandAboveSevenRaisesInvalidRegister :=
  fun _ s => ⟨fun _ hbad => exec_of_firstBad hbad s, fun _ hwf h hs => (exec_ends h).faultCause_ne_invalidRegister hwf hs⟩

end Sys2Proof.Machine
end

section
/-! ### HLT, LDI, PRN, and the frame of the instructions that write one register (40_halt_load_print.md, 41_alu.md) -/

namespace Sys2Proof.Machine

/-- Settles O14: the next state is `s.halt`. -/
theorem hltHaltsAndChangesNothingElse : Obligations.HltHaltsAndChangesNothingElse :=
  fun s => ⟨s.halt, rfl, State.halt_run s, State.halt_pc s, State.halt_reg s, State.halt_flags s,
    State.halt_faultCause s, State.halt_faultInfo s, State.halt_out s, fun a => by rw [State.halt_mem]⟩

/-- An advance that fits completes and moves `pc` by its width (10_state.md R15). -/
theorem advance_completes {w : Nat} {s : State} (h : s.pc.toNat + w ≤ 255) :
    ∃ p : Byte, p.toNat = s.pc.toNat + w ∧ advance w s = .next (s.setPc p) := by
  obtain ⟨p, hp⟩ := exists_byte_toNat_eq h
  exact ⟨p, hp, advance_of_toNat_eq hp⟩

/-- Settles O15: the operand names a register, and the advance fits. -/
theorem ldiLoadsTheImmediate : Obligations.LdiLoadsTheImmediate := by
  intro a imm8 r s ha hfits
  obtain ⟨p, hp, hadv⟩ := advance_completes (s := s.setReg r imm8) hfits
  exact ⟨(s.setReg r imm8).setPc p, (withReg_of_eq ha s _).trans hadv, State.reg_setReg_same s r imm8, hp, rfl, rfl, rfl⟩

/-- Settles O17: the operand names a register, and the advance fits. -/
theorem prnEmitsTheRegister : Obligations.PrnEmitsTheRegister := by
  intro a r s ha hfits
  obtain ⟨p, hp, hadv⟩ := advance_completes (s := s.output (s.reg r)) hfits
  exact ⟨(s.output (s.reg r)).setPc p, (withReg_of_eq ha s _).trans hadv, State.output_out s _, hp, rfl, rfl, rfl⟩

/-- Every instruction but HLT leaves `run` and the fault record as they were, or raises and leaves `pc`
(60_exceptions.md R116, R118). -/
theorem Ends.sameRecord_or_raisedFrom {s t : State} {i : Instr} (h : Ends s i t) (hi : i ≠ .hlt) :
    s.sameRecord t ∨ ∃ cause info, s.raisedFrom t cause info := by
  cases h with
  | moves _ hu => exact .inl ⟨hu.keeps_run, hu.keeps_faultCause, hu.keeps_faultInfo⟩
  | halts hhlt => exact absurd hhlt hi
  | badRegister | belowZero => exact .inr ⟨_, _, rfl, rfl, rfl, rfl⟩
  | stackTop hu | pastTop hu => exact .inr ⟨_, _, rfl, rfl, rfl, hu.keeps_pc⟩

/-- The effect of LDI, MUL and ADD is at most one write, to the register that operand 1 names. -/
theorem Effect.setReg_cases {s u : State} {i : Instr} {a b imm8 : Byte}
    (hi : i ∈ [Instr.ldi a imm8, Instr.mul a b, Instr.add a b]) (h : Effect s i u) :
    u = s ∨ ∃ (r : Reg) (v : Byte), a.toNat = r.val ∧ u = s.setReg r v := by
  simp only [List.mem_cons, List.not_mem_nil, or_false] at hi
  rcases hi with rfl | rfl | rfl
  all_goals
    cases h with
    | none => exact .inl rfl
    | _ ha => exact .inr ⟨_, _, ha, rfl⟩

/-- Settles O27: one register write is all the effect there is. -/
theorem frameOfLdiMulAdd : Obligations.FrameOfLdiMulAdd := by
  intro a b imm8 s t i hi h
  have hne : i ≠ .hlt := by rintro rfl; simp at hi
  have hrecord := (exec_ends h).sameRecord_or_raisedFrom hne
  obtain ⟨u, hu, hreg, hflags, hout, hmem⟩ := (exec_ends h).effect
  rcases hu.setReg_cases hi with rfl | ⟨r, v, ha, rfl⟩
  · exact ⟨fun q _ => hreg q, hflags, hout, fun c => by rw [hmem], hrecord⟩
  · refine ⟨fun q hq => ?_, hflags, hout, fun c => by rw [hmem, State.setReg_mem], hrecord⟩
    rw [hreg, State.reg_setReg_other _ _ _ _ (Fin.ne_of_val_ne (ha ▸ hq))]

end Sys2Proof.Machine
end

section
/-! ### ADD, MUL and CMP, and the frame of the instructions that write no register and no cell (41_alu.md) -/

namespace Sys2Proof.Machine

/-! ### The ALU's arithmetic and comparison, as numbers -/

theorem aluAdd_toNat (u v : Byte) : (aluAdd u v).toNat = (u.toNat + v.toNat) % 256 := by
  rw [aluAdd_eq, BitVec.toNat_add]

theorem aluMul_toNat (u v : Byte) : (aluMul u v).toNat = (u.toNat * v.toNat) % 256 := by
  rw [aluMul_eq, BitVec.toNat_mul]

theorem aluAdd_comm (u v : Byte) : aluAdd u v = aluAdd v u := by
  rw [aluAdd_eq, aluAdd_eq, BitVec.add_comm]

theorem aluMul_comm (u v : Byte) : aluMul u v = aluMul v u := by
  rw [aluMul_eq, aluMul_eq, BitVec.mul_comm]

/-- The sum is also the one of two's complement (41_alu.md R83). -/
theorem aluAdd_toInt (u v : Byte) : (aluAdd u v).toInt = (u.toInt + v.toInt).bmod 256 := by
  rw [aluAdd_eq, BitVec.toInt_add]

/-- The product is also the low byte of the one of two's complement (41_alu.md R83). -/
theorem aluMul_toInt (u v : Byte) : (aluMul u v).toInt = (u.toInt * v.toInt).bmod 256 := by
  rw [aluMul_eq, BitVec.toInt_mul]

theorem compareFlags_equal {u v : Byte} : (compareFlags u v).equal = true ↔ u.toNat = v.toNat := decide_eq_true_iff

theorem compareFlags_less {u v : Byte} : (compareFlags u v).less = true ↔ u.toNat < v.toNat := decide_eq_true_iff

theorem compareFlags_greater {u v : Byte} : (compareFlags u v).greater = true ↔ u.toNat > v.toNat := decide_eq_true_iff

/-- Settles O26: the ALU's sum and product are those of bit vectors, and Greater is Less of the swapped operands. -/
theorem arithmeticWrapsAndCommutes : Obligations.ArithmeticWrapsAndCommutes := by
  intro u v
  have hmirror : (compareFlags u v).greater = (compareFlags v u).less :=
    Bool.eq_iff_iff.mpr (compareFlags_greater.trans compareFlags_less.symm)
  have hequal : (compareFlags u v).equal = (compareFlags v u).equal :=
    Bool.eq_iff_iff.mpr (compareFlags_equal.trans (eq_comm.trans compareFlags_equal.symm))
  exact ⟨aluAdd_toNat u v, aluMul_toNat u v, aluAdd_comm u v, aluMul_comm u v, aluAdd_toInt u v, aluMul_toInt u v,
    compareFlags_less, hmirror, hequal⟩

/-! ### An ALU instruction that completes -/

@[simp] theorem State.alu_pc (op : AluOp) (a b : Reg) (s : State) : (s.alu op a b).pc = s.pc := by
  cases op <;> rfl

/-- The ALU touches neither `run` nor the fault record. -/
theorem State.sameRecord_alu_setPc (op : AluOp) (a b : Reg) (s : State) (p : Byte) :
    s.sameRecord ((s.alu op a b).setPc p) := by
  cases op <;> exact ⟨rfl, rfl, rfl⟩

/-- With both operands naming registers and room for its advance, an ALU instruction is its operation and then a move of
`pc` by 3 (41_alu.md R80 to R82). -/
theorem aluInstruction_completes (op : AluOp) {a b : Byte} {ra rb : Reg} {s : State} (ha : a.toNat = ra.val)
    (hb : b.toNat = rb.val) (hfits : s.pc.toNat + 3 ≤ 255) :
    ∃ p : Byte, p.toNat = s.pc.toNat + 3 ∧ aluInstruction op a b s = .next ((s.alu op ra rb).setPc p) := by
  obtain ⟨p, hp, hadv⟩ := advance_completes (w := 3) (s := s.alu op ra rb) (by rwa [State.alu_pc])
  rw [State.alu_pc] at hp
  exact ⟨p, hp, (withReg_of_eq ha s _).trans ((withReg_of_eq hb s _).trans hadv)⟩

/-- Settles O18: both complete, and the written register holds the ALU's result. -/
theorem mulAndAddWriteTheResultModulo256 : Obligations.MulAndAddWriteTheResultModulo256 := by
  intro a b ra rb s ha hb hfits
  have hmul : ((s.alu .mul ra rb).reg ra).toNat = ((s.reg ra).toNat * (s.reg rb).toNat) % 256 := by
    rw [State.alu, State.reg_setReg_same, aluMul_toNat]
  have hadd : ((s.alu .add ra rb).reg ra).toNat = ((s.reg ra).toNat + (s.reg rb).toNat) % 256 := by
    rw [State.alu, State.reg_setReg_same, aluAdd_toNat]
  constructor
  · obtain ⟨p, hp, hexec⟩ := aluInstruction_completes .mul ha hb hfits
    exact ⟨_, hexec, hmul, hp, s.sameRecord_alu_setPc _ _ _ p⟩
  · obtain ⟨p, hp, hexec⟩ := aluInstruction_completes .add ha hb hfits
    exact ⟨_, hexec, hadd, hp, s.sameRecord_alu_setPc _ _ _ p⟩

/-- Settles O19: it completes with the flags of the comparison, which set exactly one. -/
theorem cmpSetsExactlyOneFlag : Obligations.CmpSetsExactlyOneFlag := by
  intro a b ra rb s ha hb hfits
  obtain ⟨p, hp, hexec⟩ := aluInstruction_completes .cmp ha hb hfits
  exact ⟨_, hexec, hp, s.sameRecord_alu_setPc _ _ _ p, compareFlags_equal, compareFlags_less, compareFlags_greater,
    oneFlagSet_of_compareFlags rfl⟩

/-! ### The frame of CMP, PRN and the jumps -/

/-- The effect of CMP, PRN, JMP, JEQ and JNE is at most a write of the flags, by CMP, or one emitted value, by PRN. -/
theorem Effect.setFlags_or_output_cases {s u : State} {i : Instr} {a b : Byte}
    (hi : i ∈ [Instr.cmp a b, Instr.prn a, Instr.jmp a, Instr.jeq a, Instr.jne a]) (h : Effect s i u) :
    u = s ∨ (i = .cmp a b ∧ ∃ f, u = s.setFlags f) ∨ (i = .prn a ∧ ∃ v, u = s.output v) := by
  cases h with
  | none => exact .inl rfl
  | cmp => exact .inr (.inl ⟨by simpa using hi, _, rfl⟩)
  | prn => exact .inr (.inr ⟨by simpa using hi, _, rfl⟩)
  | ldi | mul | add | push | popLoad | pop | call | ret => simp at hi

/-- Settles O28: the flags or the output are all the effect there is. -/
theorem frameOfCmpPrnAndJumps : Obligations.FrameOfCmpPrnAndJumps := by
  intro a b s t i hi h
  have hne : i ≠ .hlt := by rintro rfl; simp at hi
  have hrecord := (exec_ends h).sameRecord_or_raisedFrom hne
  obtain ⟨u, hu, hreg, hflags, hout, hmem⟩ := (exec_ends h).effect
  rw [hflags, hout, hmem]
  rcases hu.setFlags_or_output_cases hi with rfl | ⟨hcmp, f, rfl⟩ | ⟨hprn, v, rfl⟩
  · exact ⟨hreg, fun _ => rfl, fun _ => rfl, fun _ => rfl, List.prefix_rfl, hrecord⟩
  · exact ⟨hreg, fun _ => rfl, fun hother => absurd hcmp hother, fun _ => rfl, List.prefix_rfl, hrecord⟩
  · exact ⟨hreg, fun _ => rfl, fun _ => rfl, fun hother => absurd hprn hother, List.prefix_append _ _, hrecord⟩

end Sys2Proof.Machine
end

section
/-! ### PUSH and POP, the frames of the four stack instructions, and the push-pop law (42_stack.md) -/

namespace Sys2Proof.Machine

/-! ### PUSH and POP that complete -/

/-- The range check of an integer that is a byte goes on with that byte. -/
theorem inRange_of_toNat_eq {n : Int} {b : Byte} (h : (b.toNat : Int) = n) (s : State) (k : Byte → Result) :
    inRange n s k = k b :=
  h ▸ inRange_of_byte b s k

/-- PUSH with a register operand, a stack pointer above 0 and room for its advance completes, with what `push_completed`
says of a PUSH that did (42_stack.md R90). -/
theorem push_completes {s : State} {a : Byte} {r : Reg} (ha : a.toNat = r.val) (hfits : s.pc.toNat + 2 ≤ 255)
    (hsp : 1 ≤ s.sp.toNat) :
    ∃ p q : Byte, p.toNat + 1 = s.sp.toNat ∧ q.toNat = s.pc.toNat + 2 ∧
      exec (.push a) s = .next (((s.setReg spReg p).setCell p.toNat ((s.setReg spReg p).reg r)).setPc q) := by
  obtain ⟨p, hp⟩ := exists_byte_toNat_eq (a := s.sp.toNat - 1) (by omega)
  have hdec := inRange_of_toNat_eq (b := p) (n := s.sp.toNat - 1) (by omega) s
  obtain ⟨q, hq, hadv⟩ := advance_completes
    (s := (s.setReg spReg p).setCell p.toNat ((s.setReg spReg p).reg r)) hfits
  exact ⟨p, q, by omega, hq, (withReg_of_eq ha s _).trans ((hdec _).trans ((memWrite_of_byte p _ _ _).trans hadv))⟩

/-- POP with a register operand loads the register, which gives the state `l`, and completes when the stack pointer can
move up from what it is in `l` and the advance fits (42_stack.md R91, spec decision D14). -/
theorem pop_completes {s l : State} {a : Byte} {r : Reg} (ha : a.toNat = r.val) (hfits : s.pc.toNat + 2 ≤ 255)
    (hload : s.setReg r (s.mem.read s.sp.toNat) = l) (hsp : l.sp.toNat ≤ 254) :
    ∃ p q : Byte, p.toNat = l.sp.toNat + 1 ∧ q.toNat = s.pc.toNat + 2 ∧
      exec (.pop a) s = .next ((l.setReg spReg p).setPc q) := by
  subst hload
  obtain ⟨p, hp⟩ := exists_byte_toNat_eq (Nat.succ_le_succ hsp)
  have hinc := inRange_of_toNat_eq (congrArg Int.ofNat hp) (s.setReg r (s.mem.read s.sp.toNat))
  obtain ⟨q, hq, hadv⟩ := advance_completes (s := (s.setReg r (s.mem.read s.sp.toNat)).setReg spReg p) hfits
  exact ⟨p, q, hp, hq, (withReg_of_eq ha s _).trans ((memRead_of_byte s.sp s _).trans ((hinc _).trans hadv))⟩

/-- Settles O20: the stack pointer can move down, the store is read back, and the advance fits. -/
theorem pushStoresBelowTheStackPointer : Obligations.PushStoresBelowTheStackPointer := by
  intro a r s ha hfits hsp hwf
  obtain ⟨p, q, hp, hq, hexec⟩ := push_completes ha hfits hsp
  have hnew : (s.setReg spReg p).sp = p := State.sp_setReg_same s p
  refine ⟨_, hexec, ?_, ?_, fun hr => ?_, hq, rfl, rfl, rfl⟩
  · rw [State.setPc_sp, State.setCell_sp, hnew, hp]
  · rw [State.setPc_sp, State.setCell_sp, hnew]
    exact Memory.read_write_same _ _ _ hwf.2
  · exact State.reg_setReg_other s spReg r p hr

/-- Settles O21: the load leaves a stack pointer that can move up, the old one for `r` other than 7 and the popped byte
for `r` = 7. -/
theorem popLoadsFromTheStackPointer : Obligations.PopLoadsFromTheStackPointer := by
  intro a r s ha hfits
  refine ⟨fun hr hsp => ?_, fun hr hsp => ?_⟩
  · have hloaded : (s.setReg r (s.mem.read s.sp.toNat)).sp = s.sp := State.sp_setReg_other s r _ hr
    obtain ⟨p, q, hp, hq, hexec⟩ := pop_completes ha hfits rfl (by rwa [hloaded])
    rw [hloaded] at hp
    refine ⟨_, hexec, ?_, ?_, rfl, hq, rfl, rfl, rfl⟩
    · rw [State.setPc_reg, State.reg_setReg_other _ _ _ _ hr, State.reg_setReg_same]
    · rw [State.setPc_sp, State.sp_setReg_same, hp]
  · subst hr
    have hloaded : (s.setReg spReg (s.mem.read s.sp.toNat)).sp = s.mem.read s.sp.toNat := State.sp_setReg_same s _
    obtain ⟨p, q, hp, hq, hexec⟩ := pop_completes ha hfits rfl (by rwa [hloaded])
    rw [hloaded] at hp
    refine ⟨_, hexec, ?_, rfl, hq, rfl, rfl, rfl⟩
    rw [State.setPc_sp, State.sp_setReg_same, hp]

/-! ### The frames of PUSH, CALL, POP and RET -/

/-- An instruction writes at most the registers of 10_state.md R11's last column, however it ends. -/
theorem Ends.keeps_reg {s t : State} {i : Instr} (h : Ends s i t) {q : Reg} (hq : q.val ∉ i.writesRegisters) :
    t.reg q = s.reg q := by
  obtain ⟨u, hu, hreg, -⟩ := h.effect
  rw [hreg, hu.keeps_reg hq]

/-- The only cell an instruction can change is the one below the stack pointer (20_memory.md R31). -/
theorem Ends.keeps_cell {s t : State} {i : Instr} (h : Ends s i t) {c : Nat} (hc : c + 1 ≠ s.sp.toNat) :
    t.mem.read c = s.mem.read c := by
  obtain ⟨u, hu, -, -, -, hmem⟩ := h.effect
  rw [hmem]
  rcases hu.store_cases with hsame | ⟨-, p, v, hp, hstore⟩
  · rw [hsame]
  · rw [hstore, Memory.read_write_other _ _ _ _ (by rintro rfl; exact hc hp)]

/-- An instruction that is neither PUSH nor CALL leaves memory alone (20_memory.md R31). -/
theorem Ends.keeps_mem {s t : State} {i : Instr} (h : Ends s i t) (hi : ¬(i.opcode = 0x45#8 ∨ i.opcode = 0x50#8)) :
    t.mem = s.mem := by
  obtain ⟨u, hu, -, -, -, hmem⟩ := h.effect
  exact hmem.trans (hu.store_cases.resolve_right fun ⟨hop, _⟩ => hi hop)

/-- The part of the frame that the four stack instructions share: flags, output, and the record unless a fault was
raised. -/
theorem Ends.stack_frame {s t : State} {i : Instr} {a : Byte} (h : Ends s i t)
    (hi : i ∈ [Instr.push a, Instr.call a, Instr.pop a, Instr.ret]) :
    t.flags = s.flags ∧ t.out = s.out ∧ (s.sameRecord t ∨ ∃ cause info, s.raisedFrom t cause info) := by
  have hcmp : ∀ b c, i ≠ .cmp b c := by rintro b c rfl; simp at hi
  have hprn : ∀ b, i ≠ .prn b := by rintro b rfl; simp at hi
  have hhlt : i ≠ .hlt := by rintro rfl; simp at hi
  obtain ⟨u, hu, -, hflags, hout, -⟩ := h.effect
  refine ⟨hflags.trans ?_, hout.trans ?_, h.sameRecord_or_raisedFrom hhlt⟩
  · exact hu.flags_cases.resolve_right fun ⟨⟨b, c, hi⟩, _⟩ => hcmp b c hi
  · exact hu.out_cases.resolve_right fun ⟨b, _, hi, _⟩ => hprn b hi

/-- Settles O29: `x[7]` is the one register PUSH and CALL write, and the cell below it the one they store to. -/
theorem frameOfPushAndCall : Obligations.FrameOfPushAndCall := by
  intro a s t i hi h
  have hends := exec_ends h
  have hwrites : i.writesRegisters = [spReg.val] := by
    have hi : i = .push a ∨ i = .call a := by simpa using hi
    rcases hi with rfl | rfl <;> rfl
  obtain ⟨hflags, hout, hrecord⟩ := hends.stack_frame (List.mem_append_left [Instr.pop a, Instr.ret] hi)
  refine ⟨fun r hr => hends.keeps_reg ?_, hflags, hout, fun c hc => hends.keeps_cell hc, hrecord⟩
  rw [hwrites, List.mem_singleton]
  exact Fin.val_ne_of_ne hr

/-- Settles O30: RET writes `x[7]` and POP writes `x[a]` and `x[7]`, and neither stores. -/
theorem frameOfPopAndRet : Obligations.FrameOfPopAndRet := by
  intro a s t i hi h
  have hends := exec_ends h
  obtain ⟨hflags, hout, hrecord⟩ := hends.stack_frame (List.mem_append_right [Instr.push a, Instr.call a] hi)
  have hi : i = .pop a ∨ i = .ret := by simpa using hi
  have hmem : t.mem = s.mem := hends.keeps_mem (by rcases hi with rfl | rfl <;> simp [Instr.opcode])
  refine ⟨fun r hr ha => hends.keeps_reg ?_, hflags, hout, fun c => by rw [hmem], hrecord⟩
  have hsp : r.val ∉ [spReg.val] := mt List.mem_singleton.mp (Fin.val_ne_of_ne hr)
  rcases hi with rfl | rfl
  · exact List.not_mem_cons_of_ne_of_not_mem (ha rfl) hsp
  · exact hsp

/-! ### The push-pop law -/

/-- Two bytes at `pc` that are a one-operand instruction's encoding are what the machine fetches. -/
theorem State.fetches_of_two_bytes {s : State} {i : Instr} {a : Byte} (hi : encode i = [i.opcode, a])
    (hfits : s.pc.toNat + 2 ≤ 256) (hop : s.mem.read s.pc.toNat = i.opcode)
    (ha : s.mem.read (s.pc.toNat + 1) = a) : s.Fetches i where
  fits := by rw [Instr.length, hi]; exact hfits
  cells := by
    rw [hi]
    exact fun
      | 0, _, hb => hop.trans (Option.some.inj hb)
      | 1, _, hb => ha.trans (Option.some.inj hb)

/-- Writing back what a register holds changes nothing. -/
theorem State.setReg_reg_self (s : State) (r : Reg) : s.setReg r (s.reg r) = s := by
  simp [State.setReg, State.reg]

/-- Settles O47: the PUSH leaves a stack top that holds `x[a]` as it is then (for `a` = 7 too), so the POP's load
changes no register and its increment undoes the decrement. -/
theorem pushThenPopRestoresTheRegisters : Obligations.PushThenPopRestoresTheRegisters := by
  intro a r s ha hrun hwf hfits hsp hcell3 hcell4 hop1 ha1 hop2 ha2
  have hfetch : s.Fetches (.push a) := State.fetches_of_two_bytes rfl (by omega) hop1 ha1
  obtain ⟨t, hpush, htsp, htop, htreg, htpc, htrun, -⟩ :=
    pushStoresBelowTheStackPointer a r s ha (by omega) hsp hwf
  obtain ⟨hframe, -, -, hcells, -⟩ := frameOfPushAndCall a s t _ List.mem_cons_self hpush
  have hfetch' : t.Fetches (.pop a) := by
    refine State.fetches_of_two_bytes rfl (by omega) ?_ ?_
    · rw [htpc, hcells _ (by omega)]; exact hop2
    · rw [htpc, hcells _ (by omega)]; exact ha2
  have hload : t.setReg r (t.mem.read t.sp.toNat) = t := by rw [htop, State.setReg_reg_self]
  obtain ⟨p, q, hp, hq, hpop⟩ := pop_completes ha (by omega) hload (by omega)
  have hpsp : p = s.sp := BitVec.eq_of_toNat_eq (by omega)
  refine ⟨t, _, (hfetch.step_eq hrun).trans hpush, (hfetch'.step_eq (htrun.trans hrun)).trans hpop, htrun.trans hrun,
    ?_, fun x => ?_, ?_, htreg, fun c hc => hcells c hc⟩
  · rw [State.setPc_pc]; omega
  · rw [State.setPc_reg]
    by_cases hx : x = spReg
    · rw [hx, State.reg_setReg_same, hpsp]; rfl
    · rw [State.reg_setReg_other _ _ _ _ hx, hframe x hx]
  · rw [← htsp]; exact htop

end Sys2Proof.Machine
end

section
/-! ### CALL, RET, the jumps, and the call-return law (43_control_transfer.md) -/

namespace Sys2Proof.Machine

/-! ### CALL and RET that complete -/

/-- CALL with a register operand, a byte after it and a stack pointer above 0 completes, with what `call_completed` says
of a CALL that did (43_control_transfer.md R100). -/
theorem call_completes {s : State} {a : Byte} {r : Reg} (ha : a.toNat = r.val) (hfits : s.pc.toNat + 2 ≤ 255)
    (hsp : 1 ≤ s.sp.toNat) :
    ∃ p ret : Byte, p.toNat + 1 = s.sp.toNat ∧ ret.toNat = s.pc.toNat + 2 ∧
      exec (.call a) s = .next (((s.setReg spReg p).setCell p.toNat ret).setPc ((s.setReg spReg p).reg r)) := by
  obtain ⟨ret, hret⟩ := exists_byte_toNat_eq hfits
  have haddr := inRange_of_toNat_eq (congrArg Int.ofNat hret) s
  obtain ⟨p, hp⟩ := exists_byte_toNat_eq (a := s.sp.toNat - 1) (by omega)
  have hdec := inRange_of_toNat_eq (b := p) (n := s.sp.toNat - 1) (by omega) s
  exact ⟨p, ret, by omega, hret,
    (withReg_of_eq ha s _).trans ((haddr _).trans ((hdec _).trans (memWrite_of_byte p _ _ _)))⟩

/-- RET with a stack pointer that can move up completes (43_control_transfer.md R101). -/
theorem ret_completes {s : State} (hsp : s.sp.toNat ≤ 254) :
    ∃ p : Byte, p.toNat = s.sp.toNat + 1 ∧
      exec .ret s = .next ((s.setReg spReg p).setPc (s.mem.read s.sp.toNat)) := by
  obtain ⟨p, hp⟩ := exists_byte_toNat_eq (Nat.succ_le_succ hsp)
  have hinc := inRange_of_toNat_eq (b := p) (n := s.sp.toNat + 1) (by omega) s
  refine ⟨p, hp, ?_⟩
  rw [show exec .ret s = execRet s from rfl, execRet, memRead_of_byte]
  exact hinc _

/-- Settles O22: the return address and the lower stack pointer are bytes, and the store is read back. -/
theorem callPushesTheReturnAddressAndJumps : Obligations.CallPushesTheReturnAddressAndJumps := by
  intro a r s ha hfits hsp hwf
  obtain ⟨p, ret, hp, hret, hexec⟩ := call_completes ha hfits hsp
  have hnew : (s.setReg spReg p).sp = p := State.sp_setReg_same s p
  refine ⟨_, hexec, ?_, ?_, rfl, fun hr => ?_, rfl, rfl, rfl⟩
  · rw [State.setPc_sp, State.setCell_sp, hnew, hp]
  · rw [State.setPc_sp, State.setCell_sp, hnew, ← hret]
    exact congrArg BitVec.toNat (Memory.read_write_same _ _ _ hwf.2)
  · exact State.reg_setReg_other s spReg r p hr

/-- Settles O23: the stack pointer can move up. -/
theorem retPopsTheProgramCounter : Obligations.RetPopsTheProgramCounter := by
  intro s hsp
  obtain ⟨p, hp, hexec⟩ := ret_completes hsp
  refine ⟨_, hexec, rfl, ?_, rfl, rfl, rfl⟩
  rw [State.setPc_sp, State.sp_setReg_same, hp]

/-! ### The jumps -/

/-- JEQ with a register operand: the Equal flag alone chooses between the jump and the advance. -/
theorem exec_jeq_of_eq {a : Byte} {r : Reg} (ha : a.toNat = r.val) (s : State) :
    exec (.jeq a) s = if s.flags.equal then .next (s.setPc (s.reg r)) else advance 2 s :=
  withReg_of_eq ha s _

/-- JNE with a register operand: the same choice, turned round. -/
theorem exec_jne_of_eq {a : Byte} {r : Reg} (ha : a.toNat = r.val) (s : State) :
    exec (.jne a) s = if s.flags.equal then advance 2 s else .next (s.setPc (s.reg r)) :=
  withReg_of_eq ha s _

/-- Settles O24: the operand names a register, and its value is the target. -/
theorem jmpGoesToTheRegister : Obligations.JmpGoesToTheRegister :=
  fun _ r s ha => ⟨s.setPc (s.reg r), withReg_of_eq ha s _, rfl, rfl, rfl, rfl⟩

/-- Settles O25: for each of JEQ and JNE, one value of E selects the jump and the other the advance, which fits. -/
theorem jeqAndJneAreComplementaryOnEqual : Obligations.JeqAndJneAreComplementaryOnEqual := by
  intro a r s ha
  refine ⟨fun he => ?jeqTaken, fun he hfits => ?jeqNotTaken, fun he => ?jneTaken, fun he hfits => ?jneNotTaken⟩
  case jeqTaken => exact ⟨_, (exec_jeq_of_eq ha s).trans (if_pos he), rfl, rfl, rfl, rfl⟩
  case jneTaken => exact ⟨_, (exec_jne_of_eq ha s).trans (if_neg (ne_true_of_eq_false he)), rfl, rfl, rfl, rfl⟩
  case jeqNotTaken =>
    obtain ⟨p, hp, hadv⟩ := advance_completes hfits
    exact ⟨_, (exec_jeq_of_eq ha s).trans ((if_neg (ne_true_of_eq_false he)).trans hadv), hp, rfl, rfl, rfl⟩
  case jneNotTaken =>
    obtain ⟨p, hp, hadv⟩ := advance_completes hfits
    exact ⟨_, (exec_jne_of_eq ha s).trans ((if_pos he).trans hadv), hp, rfl, rfl, rfl⟩

/-! ### The call-return law -/

/-- An opcode byte at `pc` that is a whole encoding is what the machine fetches, also in cell 255. -/
theorem State.fetches_of_one_byte {s : State} {i : Instr} (hi : encode i = [i.opcode])
    (hop : s.mem.read s.pc.toNat = i.opcode) : s.Fetches i where
  fits := by rw [Instr.length, hi]; exact s.pc.isLt
  cells := by
    rw [hi]
    exact fun
      | 0, _, hb => hop.trans (Option.some.inj hb)

/-- Settles O48: the CALL leaves c + 2 at its stack top; a RET with that stack top pops c + 2, and its increment undoes
the CALL's decrement. -/
theorem callThenReturnGoesToTheNextInstruction : Obligations.CallThenReturnGoesToTheNextInstruction := by
  intro a r s u ha hrun hwf hpc hsp hop hoperand
  have hcallFetch : s.Fetches (.call a) := State.fetches_of_two_bytes rfl (by omega) hop hoperand
  obtain ⟨t, hcall, htsp, htop, -, -, htrun, -⟩ :=
    callPushesTheReturnAddressAndJumps a r s ha (by omega) hsp hwf
  refine ⟨t, (hcallFetch.step_eq hrun).trans hcall, htrun.trans hrun, fun hurun huop husp hcell => ?_⟩
  have hretFetch : u.Fetches .ret := State.fetches_of_one_byte rfl huop
  obtain ⟨v, hret, hvpc, hvsp, -⟩ := retPopsTheProgramCounter u (by rw [husp]; omega)
  rw [husp] at hvpc hvsp
  refine ⟨v, (hretFetch.step_eq hurun).trans hret, ?_, BitVec.eq_of_toNat_eq (hvsp.trans htsp)⟩
  rw [hvpc, hcell, htop]

end Sys2Proof.Machine
end

section
/-! ### Faults: the raise, an opcode byte without an entry, the stack pointer and the return address (60_exceptions.md) -/

namespace Sys2Proof

/-- A byte has no entry exactly when it is no key of the dispatch table (30_encoding.md R55, R58). -/
theorem dispatch_eq_none_iff {op : Byte} : dispatch op = none ↔ op ∉ dispatchTable.map Prod.fst := by
  refine ⟨fun hnone hmem => ?_, fun hmem => dispatch_eq_none_of_notMem hmem⟩
  obtain ⟨row, hrow, rfl⟩ := List.mem_map.mp hmem
  rw [dispatch, Option.map_eq_none_iff, List.find?_eq_none] at hnone
  exact hnone row hrow (beq_self_eq_true row.1)

/-- The 13 opcode bytes as numbers (30_encoding.md R54). -/
def opcodeNumbers : Finset Nat := (dispatchTable.map fun row => row.1.toNat).toFinset

theorem dispatch_ofNat_eq_none_iff {n : Nat} (hn : n < 256) :
    dispatch (BitVec.ofNat 8 n) = none ↔ n ∉ opcodeNumbers := by
  rw [dispatch_eq_none_iff, opcodeNumbers, List.mem_toFinset, not_iff_not, List.mem_map, List.mem_map]
  have hkey (row : Byte × Handler) : row.1 = BitVec.ofNat 8 n ↔ row.1.toNat = n := by
    rw [← BitVec.toNat_inj, BitVec.toNat_ofNat, Nat.mod_eq_of_lt hn]
  simp only [hkey]

/-- 256 byte values less the 13 distinct keys (60_exceptions.md R112). -/
theorem undefined_opcode_count :
    ((List.range 256).filter fun n => (dispatch (BitVec.ofNat 8 n)).isNone).length = 243 := by
  have hfilter : (List.range 256).filter (fun n => (dispatch (BitVec.ofNat 8 n)).isNone) =
      (List.range 256).filter (· ∉ opcodeNumbers) :=
    List.filter_congr fun n hn => by
      rw [Bool.eq_iff_iff, Option.isNone_iff_eq_none, dispatch_ofNat_eq_none_iff (List.mem_range.mp hn),
        decide_eq_true_iff]
  calc ((List.range 256).filter fun n => (dispatch (BitVec.ofNat 8 n)).isNone).length
      = (Finset.range 256 \ opcodeNumbers).card := by rw [hfilter, Finset.sdiff_eq_filter]; rfl
    _ = (Finset.range 256).card - opcodeNumbers.card := Finset.card_sdiff_of_subset (by decide)
    _ = 243 := by rw [Finset.card_range]; decide

end Sys2Proof

namespace Sys2Proof.Machine

/-! ### The raise -/

/-- Settles O8: each field of a raised state is one of `State.raise`'s field lemmas. -/
theorem raiseWritesOnlyTheRecordAndRunState : Obligations.RaiseWritesOnlyTheRecordAndRunState :=
  fun s cause info =>
    ⟨State.raise_faultCause s cause info, State.raise_faultInfo s cause info, State.raise_run s cause info,
      State.raise_reg s cause info, State.raise_pc s cause info, State.raise_flags s cause info,
      State.raise_out s cause info, State.raise_mem s cause info⟩

/-! ### An opcode byte without an entry -/

/-- The opcode is looked up before an operand byte is asked for, so the fetch finds the illegal opcode at any `pc`
(30_encoding.md R57, R58). -/
theorem State.fetchDecode_of_illegal {s : State} (h : dispatch (s.mem.read s.pc.toNat) = none) :
    s.fetchDecode = .error (.illegalInstruction, (s.mem.read s.pc.toNat).toNat) := by
  simp only [State.fetchDecode, State.fetchBytes_eq, decode_illegal h]

/-- No handler raises IllegalInstruction (60_exceptions.md R112). -/
theorem Ends.faultCause_ne_illegalInstruction {s t : State} {i : Instr} (h : Ends s i t)
    (hs : s.faultCause ≠ .illegalInstruction) : t.faultCause ≠ .illegalInstruction := by
  cases h with
  | moves _ hu => exact hu.keeps_faultCause ▸ hs
  | halts => exact hs
  | badRegister | belowZero | stackTop | pastTop => exact FaultCause.noConfusion

/-- Settles O9: 13 of the 256 bytes are keys, the fetch rejects the others, and no ending of an instruction records that
cause. -/
theorem undefinedOpcodeRaisesIllegalInstruction : Obligations.UndefinedOpcodeRaisesIllegalInstruction :=
  ⟨undefined_opcode_count, fun _ hrun hnone => step_of_error hrun (State.fetchDecode_of_illegal hnone),
    fun _ _ _ h hs => (exec_ends h).faultCause_ne_illegalInstruction hs⟩

/-! ### The stack pointer and the return address out of range -/

theorem returnAddress_of_top {s : State} (h : s.pc.toNat = 254) (k : Byte → Result) :
    returnAddress s k = .next (s.raise .outOfBounds 256) := by
  rw [returnAddress, inRange_of_not (by omega), h]; rfl

/-- POP with a register operand loads the register, which gives the state `l`, and raises when the stack pointer cannot
move up from what it is in `l` (42_stack.md R91, spec decisions D10 and D14). -/
theorem pop_raises {s l : State} {a : Byte} {r : Reg} (ha : a.toNat = r.val)
    (hload : s.setReg r (s.mem.read s.sp.toNat) = l) (hsp : l.sp.toNat = 255) :
    exec (.pop a) s = .next (l.raise .outOfBounds 256) := by
  subst hload
  exact (withReg_of_eq ha s _).trans ((memRead_of_byte s.sp s _).trans (incrementSp_of_top hsp _))

/-- Settles O12: after the operand check, each is the first range check that fails; POP's comes after its load. -/
theorem stackPointerAndReturnAddressFaults : Obligations.StackPointerAndReturnAddressFaults := by
  intro a r s ha
  refine ⟨fun hsp => ?push, fun hr hsp => ?pop, fun hr htop => ?popSp, fun hpc => ?callReturnAddress,
    fun hpc hsp => ?callSp, fun hsp => ?ret⟩
  case push => exact (withReg_of_eq ha s _).trans (decrementSp_of_zero hsp _)
  case pop =>
    refine pop_raises ha (by rw [hsp]) ?_
    rw [State.sp_setReg_other s r _ hr, hsp]
  case popSp =>
    subst hr
    refine pop_raises ha (by rw [htop]) ?_
    rw [State.sp_setReg_same]; rfl
  case callReturnAddress => exact (withReg_of_eq ha s _).trans (returnAddress_of_top hpc _)
  case callSp =>
    exact (withReg_of_eq ha s _).trans ((returnAddress_of_le hpc _).trans (decrementSp_of_zero hsp _))
  case ret =>
    rw [show exec .ret s = execRet s from rfl, execRet, memRead_of_byte]
    exact incrementSp_of_top hsp _

end Sys2Proof.Machine
end

section
/-! ### Reset: the load port copies the image, and the rest is at its reset value (70_reset_and_hazards.md R130 to R132) -/

namespace Sys2Proof.Machine

/-- A load-port address is 8 bits wide, and every cell of the machine has one. -/
theorem State.loadCell_ofNat {a : Nat} (ha : a < 256) (s : State) (b : Byte) :
    s.loadCell (BitVec.ofNat 8 a, b) = s.setCell a b := by
  rw [State.loadCell, BitVec.toNat_ofNat, Nat.mod_eq_of_lt ha]

/-- An image copied in from address `a` upward is its first byte stored at `a` and the others copied in above. -/
theorem foldl_imageWrites_cons {a : Nat} (ha : a < 256) (b : Byte) (bs : List Byte) (s : State) :
    (imageWrites a (b :: bs)).foldl State.loadCell s = (imageWrites (a + 1) bs).foldl State.loadCell (s.setCell a b) := by
  rw [imageWrites, List.foldl_cons, State.loadCell_ofNat ha]

/-- The frame of the copy below its first cell, which keeps a byte once it is copied. -/
theorem read_imageWrites_below {image : List Byte} {a i : Nat} (hfits : a + image.length ≤ 256) (hi : i < a) (s : State) :
    ((imageWrites a image).foldl State.loadCell s).mem.read i = s.mem.read i := by
  induction image generalizing a s with
  | nil => rfl
  | cons b bs ih =>
    rw [List.length_cons] at hfits
    rw [foldl_imageWrites_cons (by omega), ih (by omega) (Nat.lt_succ_of_lt hi)]
    exact Memory.read_write_other _ _ _ b hi.ne

/-- The copy from its first cell upward: the image's bytes, and above them what stood there before. -/
theorem read_imageWrites {image : List Byte} {a : Nat} (hfits : a + image.length ≤ 256) {s : State} (hwf : s.mem.wf)
    (k : Nat) :
    ((imageWrites a image).foldl State.loadCell s).mem.read (a + k) = image.getD k (s.mem.read (a + k)) := by
  induction image generalizing a s k with
  | nil => rfl
  | cons b bs ih =>
    rw [List.length_cons] at hfits
    have ha : a < 256 := by omega
    have hrest : a + 1 + bs.length ≤ 256 := by omega
    rw [foldl_imageWrites_cons ha]
    cases k with
    | zero =>
      exact (read_imageWrites_below hrest (Nat.lt_succ_self a) _).trans (Memory.read_write_same _ _ b hwf.2)
    | succ k =>
      have hkept : (s.setCell a b).mem.read (a + 1 + k) = s.mem.read (a + 1 + k) :=
        Memory.read_write_other _ _ _ b (by omega)
      rw [← Nat.add_assoc, Nat.add_right_comm, ih hrest (Memory.wf_write _ _ b hwf ha), hkept, List.getD_cons_succ]

/-- An image that fits stands in memory from address 0, and every cell above it is zero. -/
theorem read_afterReset_imageWrites {image : List Byte} (hfits : image.length ≤ 256) (i : Nat) :
    (State.afterReset (imageWrites 0 image)).mem.read i = image.getD i 0x00#8 := by
  have h := read_imageWrites (a := 0) ((Nat.zero_add _).trans_le hfits) State.reset_mem_wf i
  rwa [Nat.zero_add] at h

/-- R0..R6 at reset (70_reset_and_hazards.md R130, spec decision D1). -/
theorem State.reset_reg {r : Reg} (hr : r ≠ spReg) : State.reset.reg r = 0x00#8 := by
  revert r; decide

/-- Settles O43: the reset state is the one booted from the empty image. -/
theorem resetMeetsTheInvariant : Obligations.ResetMeetsTheInvariant :=
  boot_meets_inv (image := []) rfl

/-- Settles O44: the load port writes memory alone, so every other field is `State.reset`'s; the cells are the image's
bytes; a longer image fails the one check of `State.boot`. -/
theorem bootLeavesTheResetStateWithTheImage : Obligations.BootLeavesTheResetStateWithTheImage := by
  refine fun image => ⟨fun hfits => ?fits, fun hlong => if_neg (Nat.not_le_of_lt hlong)⟩
  have hboot : State.boot image = some (State.afterReset (imageWrites 0 image)) := if_pos hfits
  have hcells := read_afterReset_imageWrites hfits
  have hinv := boot_meets_inv hboot
  obtain ⟨m, -, hs⟩ := afterReset_eq (imageWrites 0 image)
  rw [hs] at hboot hcells hinv
  exact ⟨_, hboot, rfl, fun _ hr => State.reset_reg hr, rfl, rfl, rfl, rfl, rfl, rfl, rfl, rfl, hcells, hinv⟩

end Sys2Proof.Machine
end
